-- ==== Sys2Proof/Word.lean ====
section
/-! DEFINITION. The words of the engine: binary64 patterns, command words, frames, and the instrument names. -/

namespace Sys2Proof

/-- A 64-bit pattern read as IEEE 754 binary64 (00_scope.md R14, 43_numerics.md R110). -/
abbrev F64 := BitVec 64

/-- A command word `CW`, 136 bits, bit 0 the least significant (30_encoding.md R52, 00_scope.md R12). -/
abbrev CmdWord := BitVec 136

/-- A frame word `FW`, 128 bits (30_encoding.md R64). -/
abbrev FrameWord := BitVec 128

/-- The three instruments, "a closed tagged variant" (42_waveform.md R102; codes: 00_scope.md R7).
DEDUCED, safe: code 3 is held in no state field (10_state.md R35), so it has no name here (log 12). -/
inductive Instrument where
  | piano
  | violin
  | trumpet
  deriving DecidableEq, Repr

/-- One element of the output stream: a pair (left, right) (10_state.md R30). -/
structure Frame where
  left  : F64
  right : F64
  deriving DecidableEq, Repr

end Sys2Proof
end

