-- ==== Sys2Proof/Config.lean ====
section
/-! DEFINITION. What is fixed for one engine: its size, and the free values the spec leaves open. -/

namespace Sys2Proof

/-- `N`, the number of voice slots (00_scope.md R5). -/
abbrev Config.N : Nat := 16

/-- `NI`, the number of instruments (00_scope.md R7). -/
abbrev Config.NI : Nat := 3

/-- `BLOCK`, the frames of one block of the host; only the assembler reads it (00_scope.md R10, 30_encoding.md R68). -/
abbrev Config.BLOCK : Nat := 1024

/-- A slot index, an unsigned 4-bit value 0..15 (20_memory.md R41, 40_voice_control.md R72). -/
abbrev Slot := Fin Config.N

/-- The operations whose NaN result is drawn here; the sine draws its own (42_waveform.md R104 P5). -/
inductive FpOp where
  | add
  | sub
  | mul
  | div
  deriving DecidableEq, Repr

/-- FREE VALUE. The bits an operation draws its NaN result from (43_numerics.md R118: "which one (sign, quiet
bit, payload) is **not specified**").
DEDUCED, unsafe: the draw depends on the operation and its operands alone, as 41_render_mix.md R91 and
42_waveform.md R94 need (log 5). -/
opaque Config.nanChoice : FpOp → F64 → F64 → F64

/-- FREE VALUE. How many frames the output buffer holds, of the implementation's choosing (30_encoding.md R66: "the
depth of that buffer is not specified and no value depends on it"; log 20, safe). -/
opaque Config.outputDepth : Nat

end Sys2Proof
end

