-- ==== Sys2Proof/Syntax.lean ====
section
/-! DEFINITION. The commands of the engine, one constructor for each row of spec/opcode_table.json. -/

namespace Sys2Proof

/-- A command. The constructors stand in the order of the rows of spec/opcode_table.json (30_encoding.md R54).
DESIGN CHOICE, safe: bits a command ignores (R62) are not kept; the reserved rows keep the opcode they were
read from, which no meaning reads (log 11). -/
inductive Instr where
  /-- op 0x00 (R59). -/
  | nop
  /-- op 0x01: A = frequency, B = amplitude (R55). -/
  | noteOn (frequency amplitude : F64)
  /-- op 0x02: A = frequency (R56). -/
  | noteOff (frequency : F64)
  /-- op 0x03 with B[1:0] = 0 (R57). -/
  | setInstrumentPiano
  /-- op 0x03 with B[1:0] = 1 (R57). -/
  | setInstrumentViolin
  /-- op 0x03 with B[1:0] = 2 (R57). -/
  | setInstrumentTrumpet
  /-- op 0x03 with B[1:0] = 3: malformed, executes as NOP (R61). -/
  | nopMalformedSetInstrument
  /-- op 0x04 (R58). -/
  | render
  /-- op 0x05, reserved (R60). -/
  | nopReserved05
  /-- op 0x06 to 0x07, reserved (R60). -/
  | nopReserved06 (op : BitVec 8)
  /-- op 0x08 to 0x0F, reserved (R60). -/
  | nopReserved08 (op : BitVec 8)
  /-- op 0x10 to 0x1F, reserved (R60). -/
  | nopReserved10 (op : BitVec 8)
  /-- op 0x20 to 0x3F, reserved (R60). -/
  | nopReserved20 (op : BitVec 8)
  /-- op 0x40 to 0x7F, reserved (R60). -/
  | nopReserved40 (op : BitVec 8)
  /-- op 0x80 to 0xFF, reserved (R60). -/
  | nopReserved80 (op : BitVec 8)
  deriving DecidableEq, Repr

/-- The instructions that execute as NOP: op 0x00, the malformed SET_INSTRUMENT and every reserved opcode
(40_voice_control.md R77). -/
def Instr.isNop : Instr → Bool
  | .nop => true
  | .noteOn _ _ => false
  | .noteOff _ => false
  | .setInstrumentPiano => false
  | .setInstrumentViolin => false
  | .setInstrumentTrumpet => false
  | .nopMalformedSetInstrument => true
  | .render => false
  | .nopReserved05 => true
  | .nopReserved06 _ => true
  | .nopReserved08 _ => true
  | .nopReserved10 _ => true
  | .nopReserved20 _ => true
  | .nopReserved40 _ => true
  | .nopReserved80 _ => true

end Sys2Proof
end

