-- ==== Sys2Proof/WellFormed.lean ====
section
/-! DEFINITION. Which terms of `Instr` are commands: a reserved row's opcode lies in that row's range. -/

namespace Sys2Proof

/-- The opcode of a reserved row lies in the range its row covers (30_encoding.md R60, spec/opcode_table.json);
every 64-bit pattern is accepted as an operand (R53), so nothing else is checked. -/
def Instr.wellFormed : Instr → Bool
  | .nop => true
  | .noteOn _ _ => true
  | .noteOff _ => true
  | .setInstrumentPiano => true
  | .setInstrumentViolin => true
  | .setInstrumentTrumpet => true
  | .nopMalformedSetInstrument => true
  | .render => true
  | .nopReserved05 => true
  | .nopReserved06 op => decide (0x06 ≤ op.toNat ∧ op.toNat ≤ 0x07)
  | .nopReserved08 op => decide (0x08 ≤ op.toNat ∧ op.toNat ≤ 0x0F)
  | .nopReserved10 op => decide (0x10 ≤ op.toNat ∧ op.toNat ≤ 0x1F)
  | .nopReserved20 op => decide (0x20 ≤ op.toNat ∧ op.toNat ≤ 0x3F)
  | .nopReserved40 op => decide (0x40 ≤ op.toNat ∧ op.toNat ≤ 0x7F)
  | .nopReserved80 op => decide (0x80 ≤ op.toNat)

end Sys2Proof
end

