-- ==== Sys2Proof/Decode.lean ====
section
/-! DEFINITION. Reading a command word, and writing one: the fields of 30_encoding.md R53, the opcode table,
the decoder and the encoder. -/

namespace Sys2Proof

/-- `op` = `CW[135:128]` (30_encoding.md R53). -/
def cwOp (cw : CmdWord) : BitVec 8 := cw.extractLsb' 128 8

/-- Operand `A` = `CW[127:64]` (30_encoding.md R53). -/
def cwA (cw : CmdWord) : F64 := cw.extractLsb' 64 64

/-- Operand `B` = `CW[63:0]` (30_encoding.md R53). -/
def cwB (cw : CmdWord) : F64 := cw.extractLsb' 0 64

/-- The instrument code of SET_INSTRUMENT, `B[1:0]` (30_encoding.md R53, R57). -/
def cwCode (cw : CmdWord) : BitVec 2 := cw.extractLsb' 0 2

/-- The command word `{op, A, B}` (30_encoding.md R53, R67). -/
def mkCmdWord (op : BitVec 8) (a b : F64) : CmdWord := op ++ (a ++ b)

/-- The code of an instrument (00_scope.md R7). -/
def Instrument.code : Instrument → BitVec 2
  | .piano => 0
  | .violin => 1
  | .trumpet => 2

/-- The instrument of a code; code 3 names none (00_scope.md R7, 30_encoding.md R61). -/
def Instrument.ofCode (k : BitVec 2) : Option Instrument :=
  if k = 0 then some .piano else if k = 1 then some .violin else if k = 2 then some .trumpet else none

/-- One row of spec/opcode_table.json: a word `w` selects the row with `w AND mask = bits`. -/
structure OpRow where
  bits     : CmdWord
  mask     : CmdWord
  mnemonic : String
  deriving DecidableEq, Repr

/-- The rows of spec/opcode_table.json, in its order. -/
def opcodeTable : List OpRow :=
  [ ⟨0x0000000000000000000000000000000000, 0xFF00000000000000000000000000000000, "NOP"⟩,
    ⟨0x0100000000000000000000000000000000, 0xFF00000000000000000000000000000000, "NOTE_ON"⟩,
    ⟨0x0200000000000000000000000000000000, 0xFF00000000000000000000000000000000, "NOTE_OFF"⟩,
    ⟨0x0300000000000000000000000000000000, 0xFF00000000000000000000000000000003, "SET_INSTRUMENT"⟩,
    ⟨0x0300000000000000000000000000000001, 0xFF00000000000000000000000000000003, "SET_INSTRUMENT"⟩,
    ⟨0x0300000000000000000000000000000002, 0xFF00000000000000000000000000000003, "SET_INSTRUMENT"⟩,
    ⟨0x0300000000000000000000000000000003, 0xFF00000000000000000000000000000003, "NOP"⟩,
    ⟨0x0400000000000000000000000000000000, 0xFF00000000000000000000000000000000, "RENDER"⟩ ] ++
  [ ⟨0x0500000000000000000000000000000000, 0xFF00000000000000000000000000000000, "NOP"⟩,
    ⟨0x0600000000000000000000000000000000, 0xFE00000000000000000000000000000000, "NOP"⟩,
    ⟨0x0800000000000000000000000000000000, 0xF800000000000000000000000000000000, "NOP"⟩,
    ⟨0x1000000000000000000000000000000000, 0xF000000000000000000000000000000000, "NOP"⟩,
    ⟨0x2000000000000000000000000000000000, 0xE000000000000000000000000000000000, "NOP"⟩,
    ⟨0x4000000000000000000000000000000000, 0xC000000000000000000000000000000000, "NOP"⟩,
    ⟨0x8000000000000000000000000000000000, 0x8000000000000000000000000000000000, "NOP"⟩ ]

/-- A word selects a row (30_encoding.md, the note on `opcode_table.json` before R52). -/
def OpRow.selects (r : OpRow) (cw : CmdWord) : Bool := cw &&& r.mask == r.bits

/-- The row of spec/opcode_table.json a constructor stands for, counted from 0. -/
def Instr.row : Instr → Nat
  | .nop => 0
  | .noteOn _ _ => 1
  | .noteOff _ => 2
  | .setInstrumentPiano => 3
  | .setInstrumentViolin => 4
  | .setInstrumentTrumpet => 5
  | .nopMalformedSetInstrument => 6
  | .render => 7
  | .nopReserved05 => 8
  | .nopReserved06 _ => 9
  | .nopReserved08 _ => 10
  | .nopReserved10 _ => 11
  | .nopReserved20 _ => 12
  | .nopReserved40 _ => 13
  | .nopReserved80 _ => 14

/-- The command of a word whose opcode is reserved, by the range its opcode lies in (30_encoding.md R60). -/
def decodeReserved (op : BitVec 8) : Instr :=
  if op.toNat < 0x06 then .nopReserved05
  else if op.toNat < 0x08 then .nopReserved06 op
  else if op.toNat < 0x10 then .nopReserved08 op
  else if op.toNat < 0x20 then .nopReserved10 op
  else if op.toNat < 0x40 then .nopReserved20 op
  else if op.toNat < 0x80 then .nopReserved40 op
  else .nopReserved80 op

/-- The command of a SET_INSTRUMENT word, by its code (30_encoding.md R57, R61). -/
def decodeSetInstrument (k : BitVec 2) : Instr :=
  match Instrument.ofCode k with
  | some .piano => .setInstrumentPiano
  | some .violin => .setInstrumentViolin
  | some .trumpet => .setInstrumentTrumpet
  | none => .nopMalformedSetInstrument

/-- `Decode`: total on the 136-bit words (30_encoding.md R63, with the rows of R54, R60 and R61 told apart). -/
def decode (cw : CmdWord) : Instr :=
  if cwOp cw = 0x00 then .nop
  else if cwOp cw = 0x01 then .noteOn (cwA cw) (cwB cw)
  else if cwOp cw = 0x02 then .noteOff (cwA cw)
  else if cwOp cw = 0x03 then decodeSetInstrument (cwCode cw)
  else if cwOp cw = 0x04 then .render
  else decodeReserved (cwOp cw)

/-- Why bits offered as a command are none. -/
inductive DecodeError where
  /-- Not 136 bits: "There is no shorter or longer form" (30_encoding.md R52). -/
  | notACommandWord (nbits : Nat)
  deriving DecidableEq, Repr

/-- Reading a number of `nbits` bits, bit 0 the least significant, as a command (30_encoding.md R52, R63). -/
def decodeBits (nbits w : Nat) : Except DecodeError Instr :=
  if nbits = 136 then .ok (decode (BitVec.ofNat 136 w)) else .error (.notACommandWord nbits)

/-- The command word of an instruction, ignored fields zero (30_encoding.md R53, R54, R67). -/
def encode : Instr → CmdWord
  | .nop => mkCmdWord 0x00 0 0
  | .noteOn f a => mkCmdWord 0x01 f a
  | .noteOff f => mkCmdWord 0x02 f 0
  | .setInstrumentPiano => mkCmdWord 0x03 0 0
  | .setInstrumentViolin => mkCmdWord 0x03 0 1
  | .setInstrumentTrumpet => mkCmdWord 0x03 0 2
  | .nopMalformedSetInstrument => mkCmdWord 0x03 0 3
  | .render => mkCmdWord 0x04 0 0
  | .nopReserved05 => mkCmdWord 0x05 0 0
  | .nopReserved06 op => mkCmdWord op 0 0
  | .nopReserved08 op => mkCmdWord op 0 0
  | .nopReserved10 op => mkCmdWord op 0 0
  | .nopReserved20 op => mkCmdWord op 0 0
  | .nopReserved40 op => mkCmdWord op 0 0
  | .nopReserved80 op => mkCmdWord op 0 0

/-- The command word made of the low `nbits` bits of `w`, every bit above them 0, as the engine takes it: one
parallel word with a bit order and no byte order (20_memory.md R43; log 10). -/
def tableWord (nbits w : Nat) : CmdWord := BitVec.ofNat 136 (w % 2 ^ nbits)

/-- The instruction read from a word numbered as spec/opcode_table.json numbers it; more than 136 bits are no
command (30_encoding.md R52). -/
def decodeTableWord (nbits w : Nat) : Option Instr :=
  if nbits ≤ 136 then some (decode (tableWord nbits w)) else none

end Sys2Proof
end

