-- ==== Sys2Proof/Machine/State.lean ====
section
/-! DEFINITION. The state of the engine, plain data; the reasons a step can stop; the state after reset. -/

namespace Sys2Proof.Machine

/-- One voice slot `V[i]`, six fields (10_state.md R21 to R27). -/
structure Voice where
  /-- `V[i].active`: the slot contributes to output (R22). -/
  active     : Bool
  /-- `V[i].frequency`, cycles per second (R23). -/
  frequency  : F64
  /-- `V[i].amplitude`, linear gain (R24). -/
  amplitude  : F64
  /-- `V[i].phase`, fraction of a cycle (R25). -/
  phase      : F64
  /-- `V[i].increment`, phase advance a frame (R26). -/
  increment  : F64
  /-- `V[i].instrument`, captured at allocation (R27). -/
  instrument : Instrument
  deriving DecidableEq, Repr

/-- The whole state (10_state.md R20), with the host's and the sink's side of the two ports. -/
structure State where
  /-- The voice bank `V[0..15]` (R21). -/
  voices  : Vector Voice Config.N
  /-- `DI`, the default instrument (R28). -/
  di      : Instrument
  /-- `OUT`, every frame emitted since reset, oldest first (R30). -/
  out     : List Frame
  /-- How many frames of `OUT` the sink has taken: the hidden state of R30.
  DESIGN CHOICE, safe: a count beside `OUT`, which keeps the frames already taken (log 4). -/
  taken   : Nat
  /-- The command words the host has still to deliver, next first (20_memory.md R46).
  DESIGN CHOICE, unsafe: the MODEL'S OWN field; the sequence is the host's (10_state.md R31; log 3). -/
  pending : List CmdWord
  deriving DecidableEq, Repr

/-- There is no fault: "No command, in any state, with any operand, traps, faults, halts, hangs or is refused"
(60_exceptions.md R125; log 13). No constructor, so nothing raises one. -/
inductive Fault where
  deriving DecidableEq, Repr

/-- The refusals. -/
inductive Refusal where
  /-- Raised by `exec` alone, for an instruction the model gives no meaning; safe. No arm raises it. -/
  | notModelled (mnemonic : String)
  deriving DecidableEq, Repr

/-- A free slot that was never allocated. The spec gives its five data fields no value (10_state.md R37, R38).
DESIGN CHOICE, unsafe: +0.0 and Piano (log 1). -/
def Voice.reset : Voice :=
  { active := false, frequency := 0, amplitude := 0, phase := 0, increment := 0, instrument := .piano }

/-- The state after reset: every slot free, `DI` = 0 (Piano), `OUT` empty (10_state.md R38, 70_reset_and_hazards.md
R140, R141; Piano is the spec's own choice, log 2). -/
def State.reset : State :=
  { voices := Vector.replicate Config.N Voice.reset, di := .piano, out := [], taken := 0, pending := [] }

end Sys2Proof.Machine
end

