-- ==== Sys2Proof/Machine/Operands.lean ====
section
/-! DEFINITION. What commands operate on: the slots of the voice bank, and binary64 operands read as numbers. -/

namespace Sys2Proof.Machine

/-- The slots in increasing index order: the fixed list 0, 1, ..., 15 (43_numerics.md R124, 00_scope.md R15). -/
def slots : List Slot := [0, 1, 2, 3, 4, 5, 6, 7, 8, 9, 10, 11, 12, 13, 14, 15]

/-- `V[i]` (00_scope.md R13). -/
def State.voice (s : State) (i : Slot) : Voice := s.voices[i]

/-- `V[i] <- v`, no other slot touched (00_scope.md R13). -/
def State.setVoice (s : State) (i : Slot) (v : Voice) : State := { s with voices := s.voices.set i.val v }

/-- The words the host has still to deliver, replaced. -/
def State.setPending (s : State) (words : List CmdWord) : State := { s with pending := words }

/-- How many frames the sink has taken, replaced (10_state.md R30). -/
def State.setTaken (s : State) (n : Nat) : State := { s with taken := n }

/-- The sign, bit 63 (43_numerics.md R110). -/
def fpSign (x : F64) : Bool := x.getLsbD 63

/-- The biased exponent, bits 62:52 (43_numerics.md R110). -/
def fpExp (x : F64) : Nat := (x.extractLsb' 52 11).toNat

/-- The fraction, bits 51:0 (43_numerics.md R110). -/
def fpFrac (x : F64) : Nat := (x.extractLsb' 0 52).toNat

/-- The low 63 bits of x, which order magnitudes. -/
def fpLow (x : F64) : Nat := x.toNat % 2 ^ 63

/-- e = 2047 and m != 0 (43_numerics.md R110). -/
def isNaN (x : F64) : Bool := fpExp x == 2047 && fpFrac x != 0

/-- e = 2047 and m = 0 (43_numerics.md R110). -/
def isInf (x : F64) : Bool := fpExp x == 2047 && fpFrac x == 0

/-- Zero, subnormal or normal (43_numerics.md R110). -/
def isFinite (x : F64) : Bool := fpExp x != 2047

/-- e = 0 and m = 0, either sign (43_numerics.md R110). -/
def isZero (x : F64) : Bool := fpExp x == 0 && fpFrac x == 0

/-- 2^n, as a shift, which `decide` evaluates whatever n is. -/
def pow2 (n : Nat) : Nat := 1 <<< n

/-- The magnitude in units of 2^-1074: m for e = 0, (2^52 + m) x 2^(e-1) otherwise (43_numerics.md R110). The
formula puts an infinity at 2^1024, above every finite value, which is its place in the order (R116). -/
def fpMag (x : F64) : Nat :=
  if fpExp x = 0 then fpFrac x else (2 ^ 52 + fpFrac x) * pow2 (fpExp x - 1)

/-- The value in units of 2^-1074: every finite binary64 value is a whole number of them (43_numerics.md R110). -/
def fpUnits (x : F64) : Int := if fpSign x then -(fpMag x : Int) else (fpMag x : Int)

/-- The pattern of a sign and of the 63 bits below it. -/
def fpPack (negative : Bool) (low : Nat) : F64 := BitVec.ofNat 64 (if negative then 2 ^ 63 + low else low)

/-- The low 63 bits of an infinity (43_numerics.md R110). -/
def infLow : Nat := 0x7FF0000000000000

/-- Negation flips bit 63 (43_numerics.md R113). -/
def fneg (x : F64) : F64 := x ^^^ 0x8000000000000000#64

/-- +0.0 (43_numerics.md R122). -/
def fpZero : F64 := 0x0000000000000000#64

/-- 1.0 (43_numerics.md R122). -/
def fpOne : F64 := 0x3FF0000000000000#64

/-- `FS` = 44100.0, hardwired (00_scope.md R6, 43_numerics.md R122). -/
def fpFS : F64 := 0x40E5888000000000#64

/-- `TWO_PI`, the binary64 value nearest 2 pi (42_waveform.md R95, 43_numerics.md R122). -/
def fpTwoPi : F64 := 0x401921FB54442D18#64

/-- The weight 0.2 (43_numerics.md R122). -/
def fpW02 : F64 := 0x3FC999999999999A#64

/-- The weight 0.3 (43_numerics.md R122). -/
def fpW03 : F64 := 0x3FD3333333333333#64

/-- The weight 0.4 (43_numerics.md R122). -/
def fpW04 : F64 := 0x3FD999999999999A#64

/-- The weight 0.5 (43_numerics.md R122). -/
def fpW05 : F64 := 0x3FE0000000000000#64

end Sys2Proof.Machine
end

