-- ==== Sys2Proof/Machine/Flags.lean ====
section
/-! DEFINITION. The one-bit results: the comparisons, and the priority scans over the `active` bits, the only
flag-like state of the engine (10_state.md R31). No command writes any other flag (40_voice_control.md R70). -/

namespace Sys2Proof.Machine

/-- `fge(a, b)`: neither operand NaN and the value of a at least the value of b (43_numerics.md R116). -/
def fge (a b : F64) : Bool := !isNaN a && !isNaN b && decide (fpUnits b ≤ fpUnits a)

/-- `feq(a, b)`: neither operand NaN and the values equal, the two zeros too (43_numerics.md R117). -/
def feq (a b : F64) : Bool := !isNaN a && !isNaN b && decide (fpUnits a = fpUnits b)

/-- `FirstFree()`: the lowest slot with `active = 0`, or none (40_voice_control.md R72). -/
def firstFree (s : State) : Option Slot := slots.find? (fun i => !(s.voice i).active)

/-- `FirstMatch(f)`: the lowest slot with `active = 1` and an IEEE-equal frequency, or none
(40_voice_control.md R75). -/
def firstMatch (s : State) (f : F64) : Option Slot :=
  slots.find? (fun i => (s.voice i).active && feq (s.voice i).frequency f)

end Sys2Proof.Machine
end

