-- ==== Sys2Proof/Machine/Arith.lean ====
section
/-! DEFINITION. The arithmetic primitives: one exact operation, one rounding, no flag (43_numerics.md). -/

namespace Sys2Proof.Machine

/-- The binary logarithm of n below 2^(2^k), by halving the width k times. -/
def log2Below : Nat → Nat → Nat
  | 0, _ => 0
  | k + 1, n => if n < pow2 (pow2 k) then log2Below k n else pow2 k + log2Below k (n / pow2 (pow2 k))

/-- `Nat.log2` (Laws/Rounding.lean: `ilog2_eq_log2`), written so that `decide` evaluates it on the widths that
binary64 operands give. -/
def ilog2 (n : Nat) : Nat := if n < pow2 (pow2 12) then log2Below 12 n else Nat.log2 n

/-- Round to nearest, ties to even, overflow to infinity (43_numerics.md R111): the low 63 bits of the F64 whose
magnitude is nearest to `num / den` units of 2^-1074. Below 2^53 units the spacing is one unit, so subnormals are
kept (R119); above it the spacing is the power of two that leaves a 53-bit quotient. -/
def roundMag (num den : Nat) : Nat :=
  let shift := ilog2 (num / den) - 52
  let step := den * pow2 shift
  let q := num / step
  let r := num % step
  let up := step < 2 * r ∨ (2 * r = step ∧ q % 2 = 1)
  min (shift * 2 ^ 52 + (if up then q + 1 else q)) infLow

/-- A NaN pattern made from any 64 bits, a NaN as it stands, so that every NaN pattern can be drawn
(43_numerics.md R118). -/
def toNaN (x : F64) : F64 := if isNaN x then x else x ||| 0x7FF8000000000000#64

/-- The NaN an operation returns: an unspecified NaN pattern (43_numerics.md R118; free value, log 5). -/
def nanResult (op : FpOp) (a b : F64) : F64 := toNaN (Config.nanChoice op a b)

/-- `fadd(a, b)` (43_numerics.md R112): the rounded exact sum; an exact zero is -0.0 only as (-0.0) + (-0.0). -/
def fadd (a b : F64) : F64 :=
  if isNaN a || isNaN b then nanResult .add a b
  else if isInf a then (if isInf b && fpSign a != fpSign b then nanResult .add a b else a)
  else if isInf b then b
  else
    let sum := fpUnits a + fpUnits b
    if sum = 0 then fpPack (fpSign a && fpSign b) 0
    else fpPack (decide (sum < 0)) (roundMag sum.natAbs 1)

/-- `fsub(a, b)` = `fadd(a, negation of b)` for a non-NaN b; with b NaN a NaN (43_numerics.md R113). -/
def fsub (a b : F64) : F64 := if isNaN b then nanResult .sub a b else fadd a (fneg b)

/-- `fmul(a, b)` (43_numerics.md R114): the rounded exact product, the sign the exclusive-or of the signs. -/
def fmul (a b : F64) : F64 :=
  if isNaN a || isNaN b then nanResult .mul a b
  else if isInf a || isInf b then
    (if isZero a || isZero b then nanResult .mul a b else fpPack (fpSign a ^^ fpSign b) infLow)
  else fpPack (fpSign a ^^ fpSign b) (roundMag (fpMag a * fpMag b) (pow2 1074))

/-- `fdiv(a, FS)`, the only division the engine has (43_numerics.md R115; log 7): the rounded exact quotient with
the sign of a. -/
def fdivFS (a : F64) : F64 :=
  if isNaN a then nanResult .div a fpFS
  else if isInf a then a
  else fpPack (fpSign a) (roundMag (fpMag a * pow2 1074) (fpMag fpFS))

end Sys2Proof.Machine
end

