-- ==== Sys2Proof/Laws/Rounding.lean ====
section
/-! SUPPORT. What `roundMag` answers: a nearest magnitude, even on a tie; hence exact where the value is a binary64
magnitude, and monotone against every binary64 bound. -/

namespace Sys2Proof.Machine

@[simp] theorem pow2_eq (n : Nat) : pow2 n = 2 ^ n := Nat.one_shiftLeft n

theorem log2Below_eq_log2 (k n : Nat) (h : n < 2 ^ 2 ^ k) : log2Below k n = Nat.log2 n := by
  induction k generalizing n with
  | zero =>
    have : n = 0 ∨ n = 1 := by simp at h; omega
    rcases this with rfl | rfl <;> rw [log2Below, Nat.log2_eq_log_two] <;> simp
  | succ k ih =>
    simp only [log2Below, pow2_eq]
    split
    · exact ih n ‹_›
    · have hle : 2 ^ 2 ^ k ≤ n := by omega
      have hlt : n / 2 ^ 2 ^ k < 2 ^ 2 ^ k := by
        rw [Nat.div_lt_iff_lt_mul (by positivity), ← pow_add, ← two_mul, ← pow_succ']
        exact h
      rw [ih _ hlt, Nat.log2_eq_log_two, Nat.log2_eq_log_two, Nat.log_div_base_pow]
      have := Nat.le_log_of_pow_le (b := 2) (by norm_num) hle
      omega

/-- The logarithm the rounding uses is `Nat.log2`, for every argument. -/
theorem ilog2_eq_log2 (n : Nat) : ilog2 n = Nat.log2 n := by
  unfold ilog2
  split
  · exact log2Below_eq_log2 12 n (by simpa only [pow2_eq] using ‹n < pow2 (pow2 12)›)
  · rfl

/-- The magnitude, in units of 2^-1074, of the pattern whose low 63 bits are `p`. -/
def lowMag (p : Nat) : Nat :=
  if p / 2 ^ 52 = 0 then p % 2 ^ 52 else (2 ^ 52 + p % 2 ^ 52) * 2 ^ (p / 2 ^ 52 - 1)

/-- A 53-bit quotient q on the grid of spacing 2^shift stands at the low bits shift x 2^52 + q. -/
theorem lowMag_grid (shift q : Nat) (hq : q ≤ 2 ^ 53) (h : shift = 0 ∨ 2 ^ 52 ≤ q) :
    lowMag (shift * 2 ^ 52 + q) = q * 2 ^ shift := by
  unfold lowMag
  rcases Nat.lt_or_ge q (2 ^ 52) with hlt | hge
  · have h0 : shift = 0 := by omega
    have h1 : (shift * 2 ^ 52 + q) / 2 ^ 52 = 0 := by omega
    have h2 : (shift * 2 ^ 52 + q) % 2 ^ 52 = q := by omega
    rw [if_pos h1, h2, h0, pow_zero, mul_one]
  · rcases Nat.lt_or_ge q (2 ^ 53) with hq' | hq'
    · have h1 : (shift * 2 ^ 52 + q) / 2 ^ 52 = shift + 1 := by omega
      have h2 : (shift * 2 ^ 52 + q) % 2 ^ 52 = q - 2 ^ 52 := by omega
      rw [h1, h2, if_neg (by omega), Nat.add_sub_cancel, Nat.add_sub_of_le hge]
    · have h1 : (shift * 2 ^ 52 + q) / 2 ^ 52 = shift + 2 := by omega
      have h2 : (shift * 2 ^ 52 + q) % 2 ^ 52 = 0 := by omega
      rw [h1, h2, if_neg (by omega), show shift + 2 - 1 = shift + 1 by omega, pow_succ,
        show q = 2 ^ 52 * 2 by omega]
      ring

/-- The grid of a pattern: its spacing and its quotient. -/
theorem low_eq_grid (p : Nat) : ∃ shift q, p = shift * 2 ^ 52 + q ∧ q < 2 ^ 53 ∧ (shift = 0 ∨ 2 ^ 52 ≤ q) := by
  rcases Nat.lt_or_ge p (2 ^ 52) with h | h
  · exact ⟨0, p, by omega, by omega, .inl rfl⟩
  · exact ⟨p / 2 ^ 52 - 1, p % 2 ^ 52 + 2 ^ 52, by omega, by omega, .inr (by omega)⟩

theorem lowMag_lt_succ (p : Nat) : lowMag p < lowMag (p + 1) := by
  obtain ⟨shift, q, rfl, hq, h⟩ := low_eq_grid p
  rw [lowMag_grid shift q (by omega) h, add_assoc, lowMag_grid shift (q + 1) (by omega) (by omega)]
  exact Nat.mul_lt_mul_of_pos_right (by omega) (by positivity)

/-- Patterns of one sign are ordered as their magnitudes are. -/
theorem lowMag_strictMono : StrictMono lowMag := strictMono_nat_of_lt_succ lowMag_lt_succ

/-- The rounded pattern, before the clamp at infinity, is the grid point below the value or the one after it. -/
theorem roundMag_cases (num den : Nat) (hd : 0 < den) :
    ∃ floor up, roundMag num den = min (if up = true then floor + 1 else floor) infLow ∧
      den * lowMag floor ≤ num ∧ num < den * lowMag (floor + 1) ∧
      (up = true → den * lowMag (floor + 1) + den * lowMag floor ≤ 2 * num ∧
        (den * lowMag (floor + 1) + den * lowMag floor = 2 * num → (floor + 1) % 2 = 0)) ∧
      (up = false → 2 * num ≤ den * lowMag (floor + 1) + den * lowMag floor ∧
        (den * lowMag (floor + 1) + den * lowMag floor = 2 * num → floor % 2 = 0)) := by
  set v := num / den with hv
  set shift := Nat.log2 v - 52 with hshift
  set step := den * 2 ^ shift with hstep
  have hsp : 0 < step := by positivity
  set q := num / step with hq
  set r := num % step with hr
  have hnum : step * q + r = num := Nat.div_add_mod num step
  have hrlt : r < step := Nat.mod_lt _ hsp
  have hqv : q = v / 2 ^ shift := by rw [hq, hstep, hv, Nat.div_div_eq_div_mul]
  have hvlt : v < 2 ^ (Nat.log2 v + 1) := Nat.lt_log2_self
  have hq53 : q < 2 ^ 53 := by
    rw [hqv, Nat.div_lt_iff_lt_mul (by positivity), ← pow_add]
    exact lt_of_lt_of_le hvlt (Nat.pow_le_pow_right (by norm_num) (by omega))
  have hq52 : shift = 0 ∨ 2 ^ 52 ≤ q := by
    rcases Nat.eq_zero_or_pos shift with h | h
    · exact .inl h
    · right
      have hv0 : v ≠ 0 := by
        intro h0
        rw [h0, Nat.log2_eq_log_two, Nat.log_zero_right] at hshift
        omega
      rw [hqv, Nat.le_div_iff_mul_le (by positivity), ← pow_add]
      exact le_trans (Nat.pow_le_pow_right (by norm_num) (by omega)) (Nat.log2_self_le hv0)
  have hf : lowMag (shift * 2 ^ 52 + q) = q * 2 ^ shift := lowMag_grid shift q (by omega) hq52
  have hc : lowMag (shift * 2 ^ 52 + q + 1) = (q + 1) * 2 ^ shift := by
    rw [add_assoc]; exact lowMag_grid shift (q + 1) (by omega) (by omega)
  have ef : den * lowMag (shift * 2 ^ 52 + q) = step * q := by rw [hf, hstep]; ring
  have ec : den * lowMag (shift * 2 ^ 52 + q + 1) = step * q + step := by rw [hc, hstep]; ring
  refine ⟨shift * 2 ^ 52 + q, decide (step < 2 * r ∨ (2 * r = step ∧ q % 2 = 1)), ?_, ?_, ?_, ?_, ?_⟩
  · simp only [roundMag, ilog2_eq_log2, pow2_eq, ← hv, ← hshift, ← hstep, ← hq, ← hr, decide_eq_true_eq]
    by_cases hup : step < 2 * r ∨ 2 * r = step ∧ q % 2 = 1
    · rw [if_pos hup, if_pos hup, Nat.add_assoc]
    · rw [if_neg hup, if_neg hup]
  · omega
  · omega
  · intro hup
    simp only [decide_eq_true_eq] at hup
    constructor
    · omega
    · intro he
      omega
  · intro hup
    simp only [decide_eq_false_iff_not, not_or, not_and] at hup
    constructor
    · omega
    · intro he
      have := hup.2 (by omega)
      omega

theorem roundMag_le_infLow (num den : Nat) : roundMag num den ≤ infLow := Nat.min_le_right _ _

/-- Round to nearest, ties to even (43_numerics.md R111): no pattern up to infinity, infinity counted as 2^1024, is
nearer, and one as near is the same or gives way to the even one. -/
theorem roundMag_nearest (num den c : Nat) (hd : 0 < den) (hc : c ≤ infLow) :
    |(num : Int) - den * lowMag (roundMag num den)| ≤ |(num : Int) - den * lowMag c| ∧
      (|(num : Int) - den * lowMag (roundMag num den)| = |(num : Int) - den * lowMag c| →
        c = roundMag num den ∨ roundMag num den % 2 = 0) := by
  obtain ⟨floor, up, heq, hlo, hhi, hup, hdown⟩ := roundMag_cases num den hd
  have mono : ∀ a b, a ≤ b → den * lowMag a ≤ den * lowMag b :=
    fun a b hab => Nat.mul_le_mul_left _ (lowMag_strictMono.monotone hab)
  simp only [Int.abs_eq_natAbs, Nat.cast_le, Nat.cast_inj, ← Nat.cast_mul]
  rw [heq]
  rcases Nat.lt_or_ge floor infLow with hfi | hfi
  · have hcc : c ≤ floor ∨ floor + 1 ≤ c := by omega
    have m1 : c ≤ floor → den * lowMag c ≤ den * lowMag floor := mono c floor
    have m2 : floor + 1 ≤ c → den * lowMag (floor + 1) ≤ den * lowMag c := mono (floor + 1) c
    have s1 : c < floor → den * lowMag c < den * lowMag floor :=
      fun h => Nat.mul_lt_mul_of_pos_left (lowMag_strictMono h) hd
    have s2 : floor + 1 < c → den * lowMag (floor + 1) < den * lowMag c :=
      fun h => Nat.mul_lt_mul_of_pos_left (lowMag_strictMono h) hd
    cases up with
    | true =>
      rw [if_pos rfl, Nat.min_eq_left (by omega)]
      have := hup rfl
      generalize den * lowMag c = X at *
      generalize den * lowMag floor = F at *
      generalize den * lowMag (floor + 1) = C at *
      omega
    | false =>
      rw [if_neg (by simp), Nat.min_eq_left (by omega)]
      have := hdown rfl
      generalize den * lowMag c = X at *
      generalize den * lowMag floor = F at *
      generalize den * lowMag (floor + 1) = C at *
      omega
  · rw [Nat.min_eq_right (by split <;> omega)]
    have m1 := mono c infLow hc
    have m2 := mono infLow floor hfi
    have s1 : c < infLow → den * lowMag c < den * lowMag infLow :=
      fun h => Nat.mul_lt_mul_of_pos_left (lowMag_strictMono h) hd
    generalize den * lowMag c = X at *
    generalize den * lowMag infLow = I at *
    generalize den * lowMag floor = F at *
    omega

/-- A value at most that of a pattern rounds to at most that pattern. -/
theorem roundMag_le (num den c : Nat) (hd : 0 < den) (hc : c ≤ infLow) (h : num ≤ den * lowMag c) :
    roundMag num den ≤ c := by
  by_contra hgt
  obtain ⟨hle, -⟩ := roundMag_nearest num den c hd hc
  have := Nat.mul_lt_mul_of_pos_left (lowMag_strictMono (not_le.mp hgt)) hd
  simp only [Int.abs_eq_natAbs, Nat.cast_le, ← Nat.cast_mul] at hle
  generalize den * lowMag c = X at *
  generalize den * lowMag (roundMag num den) = R at *
  omega

/-- A value at least that of a pattern rounds to at least that pattern. -/
theorem le_roundMag (num den c : Nat) (hd : 0 < den) (hc : c ≤ infLow) (h : den * lowMag c ≤ num) :
    c ≤ roundMag num den := by
  by_contra hgt
  obtain ⟨hle, -⟩ := roundMag_nearest num den c hd hc
  have := Nat.mul_lt_mul_of_pos_left (lowMag_strictMono (not_le.mp hgt)) hd
  simp only [Int.abs_eq_natAbs, Nat.cast_le, ← Nat.cast_mul] at hle
  generalize den * lowMag c = X at *
  generalize den * lowMag (roundMag num den) = R at *
  omega

/-- A value that is a binary64 magnitude is not rounded. -/
theorem roundMag_exact (num den c : Nat) (hd : 0 < den) (hc : c ≤ infLow) (h : num = den * lowMag c) :
    roundMag num den = c :=
  Nat.le_antisymm (roundMag_le num den c hd hc h.le) (le_roundMag num den c hd hc h.ge)

/-- A larger value rounds to no smaller pattern. -/
theorem roundMag_mono (num num' den : Nat) (hd : 0 < den) (h : num ≤ num') :
    roundMag num den ≤ roundMag num' den := by
  obtain ⟨floor, up, heq, hlo, hhi, hup, hdown⟩ := roundMag_cases num den hd
  obtain ⟨floor', up', heq', hlo', hhi', hup', hdown'⟩ := roundMag_cases num' den hd
  have hff : floor ≤ floor' := by
    by_contra hgt
    have := Nat.mul_le_mul_left den (lowMag_strictMono.monotone (show floor' + 1 ≤ floor by omega))
    omega
  rcases Nat.lt_or_ge floor floor' with hlt | hge
  · rw [heq, heq']
    generalize infLow = I
    split <;> split <;> omega
  · obtain rfl : floor = floor' := by omega
    rw [heq, heq']
    have : up = true → up' = true := by
      intro h
      by_contra h'
      obtain ⟨h1, h2⟩ := hup h
      obtain ⟨h3, h4⟩ := hdown' (by simpa using h')
      generalize den * lowMag floor = F at *
      generalize den * lowMag (floor + 1) = C at *
      omega
    by_cases h : up = true
    · rw [if_pos h, if_pos (this h)]
    · rw [if_neg h]
      generalize infLow = I
      split <;> omega

end Sys2Proof.Machine
end

