-- ==== Sys2Proof/Laws/Float.lean ====
section
/-! SUPPORT. Binary64 patterns as a sign and 63 low bits; what each arithmetic primitive can answer; bounds that
survive a rounding. -/

namespace Sys2Proof.Machine

/-! ### The anatomy of a pattern -/

theorem fpSign_eq (x : F64) : fpSign x = decide (2 ^ 63 ≤ x.toNat) := by
  rw [fpSign, BitVec.getLsbD, Nat.testBit_eq_decide_div_mod_eq, decide_eq_decide]
  have := x.isLt
  omega

theorem fpExp_eq (x : F64) : fpExp x = fpLow x / 2 ^ 52 := by
  simp only [fpExp, fpLow, BitVec.extractLsb'_toNat, Nat.shiftRight_eq_div_pow]
  omega

theorem fpFrac_eq (x : F64) : fpFrac x = fpLow x % 2 ^ 52 := by
  simp only [fpFrac, fpLow, BitVec.extractLsb'_toNat, Nat.shiftRight_eq_div_pow]
  omega

theorem fpLow_lt (x : F64) : fpLow x < 2 ^ 63 := Nat.mod_lt _ (by positivity)

theorem fpMag_eq (x : F64) : fpMag x = lowMag (fpLow x) := by
  simp only [fpMag, lowMag, fpExp_eq, fpFrac_eq, pow2_eq]

/-- A pattern is its sign and its low 63 bits. -/
theorem fp_ext {x y : F64} (hs : fpSign x = fpSign y) (hl : fpLow x = fpLow y) : x = y := by
  apply BitVec.eq_of_toNat_eq
  rw [fpSign_eq, fpSign_eq, decide_eq_decide] at hs
  simp only [fpLow] at hl
  have := x.isLt
  have := y.isLt
  omega

theorem isNaN_iff (x : F64) : isNaN x = true ↔ infLow < fpLow x := by
  have := fpLow_lt x
  simp only [isNaN, fpExp_eq, fpFrac_eq, Bool.and_eq_true, beq_iff_eq, bne_iff_ne, infLow]
  omega

theorem isInf_iff (x : F64) : isInf x = true ↔ fpLow x = infLow := by
  have := fpLow_lt x
  simp only [isInf, fpExp_eq, fpFrac_eq, Bool.and_eq_true, beq_iff_eq, infLow]
  omega

theorem isFinite_iff (x : F64) : isFinite x = true ↔ fpLow x < infLow := by
  have := fpLow_lt x
  simp only [isFinite, fpExp_eq, bne_iff_ne, infLow]
  omega

theorem isZero_iff (x : F64) : isZero x = true ↔ fpLow x = 0 := by
  have := fpLow_lt x
  simp only [isZero, fpExp_eq, fpFrac_eq, Bool.and_eq_true, beq_iff_eq]
  omega

theorem fpSign_pack (s : Bool) {low : Nat} (h : low < 2 ^ 63) : fpSign (fpPack s low) = s := by
  rw [fpSign_eq, fpPack, BitVec.toNat_ofNat]
  cases s
  · rw [if_neg (by simp), Nat.mod_eq_of_lt (by omega)]
    simp; omega
  · rw [if_pos rfl, Nat.mod_eq_of_lt (by omega)]
    simp

theorem fpLow_pack (s : Bool) {low : Nat} (h : low < 2 ^ 63) : fpLow (fpPack s low) = low := by
  rw [fpLow, fpPack, BitVec.toNat_ofNat]
  cases s
  · rw [if_neg (by simp)]; omega
  · rw [if_pos rfl]; omega

theorem fpSign_fneg (x : F64) : fpSign (fneg x) = !fpSign x := by
  rw [fpSign, fneg, BitVec.getLsbD_xor, show BitVec.getLsbD (0x8000000000000000#64) 63 = true from by decide,
    Bool.xor_true, fpSign]

theorem fpLow_fneg (x : F64) : fpLow (fneg x) = fpLow x := by
  rw [fpLow, fneg, BitVec.toNat_xor, Nat.xor_mod_two_pow,
    show (0x8000000000000000#64).toNat % 2 ^ 63 = 0 from by decide, Nat.xor_zero, fpLow]

theorem lowMag_zero : lowMag 0 = 0 := by simp [lowMag]

theorem fpUnits_pack (s : Bool) {low : Nat} (h : low < 2 ^ 63) :
    fpUnits (fpPack s low) = if s = true then -(lowMag low : Int) else (lowMag low : Int) := by
  rw [fpUnits, fpSign_pack s h, fpMag_eq, fpLow_pack s h]

theorem fpUnits_fneg (x : F64) : fpUnits (fneg x) = -fpUnits x := by
  rw [fpUnits, fpUnits, fpSign_fneg, fpMag_eq, fpMag_eq, fpLow_fneg]
  cases fpSign x <;> simp

theorem fpUnits_natAbs (x : F64) : (fpUnits x).natAbs = fpMag x := by
  unfold fpUnits
  split <;> simp

theorem fpMag_eq_zero_iff (x : F64) : fpMag x = 0 ↔ fpLow x = 0 := by
  rw [fpMag_eq]
  constructor
  · intro h
    exact lowMag_strictMono.injective (h.trans lowMag_zero.symm)
  · intro h
    rw [h, lowMag_zero]

theorem infLow_lt : infLow < 2 ^ 63 := by decide

theorem roundMag_lt (num den : Nat) : roundMag num den < 2 ^ 63 :=
  lt_of_le_of_lt (roundMag_le_infLow num den) infLow_lt

/-- A rounded result is never a NaN. -/
theorem isNaN_round (s : Bool) (num den : Nat) : isNaN (fpPack s (roundMag num den)) = false := by
  rw [← Bool.not_eq_true, isNaN_iff, fpLow_pack s (roundMag_lt num den)]
  exact not_lt.mpr (roundMag_le_infLow num den)

theorem not_isNaN_iff (x : F64) : isNaN x = false ↔ fpLow x ≤ infLow := by
  rw [← Bool.not_eq_true, isNaN_iff, not_lt]

theorem not_isInf_of_isFinite {x : F64} (h : isFinite x = true) : isInf x = false := by
  rw [← Bool.not_eq_true, isInf_iff]
  exact ((isFinite_iff x).mp h).ne

theorem not_isNaN_of_isFinite {x : F64} (h : isFinite x = true) : isNaN x = false :=
  (not_isNaN_iff x).mpr ((isFinite_iff x).mp h).le

/-! ### NaN results -/

/-- Whatever bits are drawn, the result is a NaN (43_numerics.md R118). -/
theorem isNaN_toNaN (x : F64) : isNaN (toNaN x) = true := by
  unfold toNaN
  split
  · assumption
  · rw [isNaN_iff, fpLow, BitVec.toNat_or, Nat.or_mod_two_pow,
      show (0x7FF8000000000000#64).toNat % 2 ^ 63 = 0x7FF8000000000000 from by decide]
    exact lt_of_lt_of_le (by decide) Nat.right_le_or

/-! ### The primitives on finite operands -/

theorem fadd_finite {a b : F64} (ha : isFinite a = true) (hb : isFinite b = true) :
    fadd a b = fpPack
      (if fpUnits a + fpUnits b = 0 then fpSign a && fpSign b else decide (fpUnits a + fpUnits b < 0))
      (roundMag (fpUnits a + fpUnits b).natAbs 1) := by
  unfold fadd
  simp only [not_isNaN_of_isFinite ha, not_isNaN_of_isFinite hb, not_isInf_of_isFinite ha,
    not_isInf_of_isFinite hb, Bool.or_false, Bool.false_eq_true, if_false]
  split
  · rename_i h
    rw [h, Int.natAbs_zero, roundMag_exact 0 1 0 (by norm_num) (Nat.zero_le _) (by rw [lowMag_zero])]
  · rfl

theorem fmul_finite {a b : F64} (ha : isFinite a = true) (hb : isFinite b = true) :
    fmul a b = fpPack (fpSign a ^^ fpSign b) (roundMag (fpMag a * fpMag b) (2 ^ 1074)) := by
  unfold fmul
  simp only [not_isNaN_of_isFinite ha, not_isNaN_of_isFinite hb, not_isInf_of_isFinite ha,
    not_isInf_of_isFinite hb, Bool.or_false, Bool.false_eq_true, if_false, pow2_eq]

theorem fdivFS_finite {a : F64} (ha : isFinite a = true) :
    fdivFS a = fpPack (fpSign a) (roundMag (fpMag a * 2 ^ 1074) (fpMag fpFS)) := by
  unfold fdivFS
  simp only [not_isNaN_of_isFinite ha, not_isInf_of_isFinite ha, Bool.false_eq_true, if_false, pow2_eq]

theorem fsub_eq {a b : F64} (hb : isNaN b = false) : fsub a b = fadd a (fneg b) := by
  rw [fsub, hb, if_neg (by simp)]

/-! ### Bounds survive a rounding -/

/-- A signed value at most that of a non-NaN pattern rounds to at most that value. -/
theorem round_units_le (s : Bool) (num den : Nat) (c : F64) (hd : 0 < den) (hc : isNaN c = false)
    (h : (if s = true then -(num : Int) else (num : Int)) ≤ den * fpUnits c) :
    fpUnits (fpPack s (roundMag num den)) ≤ fpUnits c := by
  rw [fpUnits_pack s (roundMag_lt num den)]
  have hc' := (not_isNaN_iff c).mp hc
  unfold fpUnits at h ⊢
  rw [fpMag_eq] at h ⊢
  cases s <;> cases hs : fpSign c <;> simp only [hs, Bool.false_eq_true, if_false, if_true] at h ⊢
  · exact_mod_cast lowMag_strictMono.monotone (roundMag_le num den _ hd hc' (by exact_mod_cast h))
  · have h0 : num = 0 ∧ den * lowMag (fpLow c) = 0 := by
      rw [mul_neg] at h
      have : ((den * lowMag (fpLow c) : Nat) : Int) = den * lowMag (fpLow c) := by push_cast; rfl
      omega
    have hz := roundMag_le num den 0 hd (Nat.zero_le _) (by omega)
    rw [Nat.le_zero.mp hz, lowMag_zero]
    have : lowMag (fpLow c) = 0 := by
      rcases Nat.mul_eq_zero.mp h0.2 with h1 | h1
      · omega
      · exact h1
    rw [this]
    simp
  · have : (0 : Int) ≤ lowMag (fpLow c) := Int.natCast_nonneg _
    have : (0 : Int) ≤ lowMag (roundMag num den) := Int.natCast_nonneg _
    omega
  · rw [mul_neg, neg_le_neg_iff] at h
    rw [neg_le_neg_iff]
    exact_mod_cast lowMag_strictMono.monotone (le_roundMag num den _ hd hc' (by exact_mod_cast h))

/-- A signed value at least that of a non-NaN pattern rounds to at least that value. -/
theorem le_round_units (s : Bool) (num den : Nat) (c : F64) (hd : 0 < den) (hc : isNaN c = false)
    (h : den * fpUnits c ≤ (if s = true then -(num : Int) else (num : Int))) :
    fpUnits c ≤ fpUnits (fpPack s (roundMag num den)) := by
  have hn : isNaN (fneg c) = false := by rw [not_isNaN_iff, fpLow_fneg, ← not_isNaN_iff]; exact hc
  have := round_units_le (!s) num den (fneg c) hd hn (by
    rw [fpUnits_fneg, mul_neg]
    cases s <;> simp at h ⊢ <;> omega)
  rw [fpUnits_fneg, fpUnits_pack _ (roundMag_lt num den)] at this
  rw [fpUnits_pack _ (roundMag_lt num den)]
  cases s <;> simp at this ⊢ <;> omega

/-- The sign and magnitude the sum is packed with make the exact sum. -/
theorem fadd_signed (a b : F64) :
    (if (if fpUnits a + fpUnits b = 0 then fpSign a && fpSign b else decide (fpUnits a + fpUnits b < 0)) = true
      then -((fpUnits a + fpUnits b).natAbs : Int) else ((fpUnits a + fpUnits b).natAbs : Int))
      = fpUnits a + fpUnits b := by
  by_cases h : fpUnits a + fpUnits b = 0
  · simp [h]
  · simp only [if_neg h, decide_eq_true_eq]
    split <;> omega

theorem fadd_units_le {a b c : F64} (ha : isFinite a = true) (hb : isFinite b = true) (hc : isNaN c = false)
    (h : fpUnits a + fpUnits b ≤ fpUnits c) : fpUnits (fadd a b) ≤ fpUnits c := by
  rw [fadd_finite ha hb]
  exact round_units_le _ _ 1 c (by norm_num) hc (by rw [fadd_signed]; simpa using h)

theorem le_fadd_units {a b c : F64} (ha : isFinite a = true) (hb : isFinite b = true) (hc : isNaN c = false)
    (h : fpUnits c ≤ fpUnits a + fpUnits b) : fpUnits c ≤ fpUnits (fadd a b) := by
  rw [fadd_finite ha hb]
  exact le_round_units _ _ 1 c (by norm_num) hc (by rw [fadd_signed]; simpa using h)

/-- A sum that is a binary64 value is not rounded. -/
theorem fadd_units_exact {a b c : F64} (ha : isFinite a = true) (hb : isFinite b = true) (hc : isNaN c = false)
    (h : fpUnits a + fpUnits b = fpUnits c) : fpUnits (fadd a b) = fpUnits c :=
  le_antisymm (fadd_units_le ha hb hc h.le) (le_fadd_units ha hb hc h.ge)

/-- The magnitude of a product is at most that of a pattern that bounds the exact product. -/
theorem fmul_mag_le {a b c : F64} (ha : isFinite a = true) (hb : isFinite b = true) (hc : isNaN c = false)
    (h : fpMag a * fpMag b ≤ 2 ^ 1074 * fpMag c) : fpLow (fmul a b) ≤ fpLow c := by
  rw [fmul_finite ha hb, fpLow_pack _ (roundMag_lt _ _)]
  exact roundMag_le _ _ _ (by positivity) ((not_isNaN_iff c).mp hc) (by rwa [← fpMag_eq])

theorem fpMag_le_iff (x y : F64) : fpMag x ≤ fpMag y ↔ fpLow x ≤ fpLow y := by
  rw [fpMag_eq, fpMag_eq, lowMag_strictMono.le_iff_le]

theorem isFinite_of_low_le {x y : F64} (hy : isFinite y = true) (h : fpLow x ≤ fpLow y) : isFinite x = true :=
  (isFinite_iff x).mpr (lt_of_le_of_lt h ((isFinite_iff y).mp hy))

end Sys2Proof.Machine
end

