-- ==== Sys2Proof/Machine/Sine.lean ====
section
/-! DEFINITION. What an admissible sine evaluator is (42_waveform.md R104), and one that is: the reference sine. -/

namespace Sys2Proof.Machine

/-- The properties R104 asks of a sine, P2 to P5; P1 is that it is a function (42_waveform.md R104). `eps` is
`EPS_SIN`, at most 2^-33. -/
structure SineAdmissible (sin : F64 → F64) (eps : ℝ) : Prop where
  eps_le   : eps ≤ 1 / 2 ^ 33
  zero     : sin fpZero = fpZero
  range    : ∀ x, isFinite x = true → isFinite (sin x) = true ∧ fpMag (sin x) ≤ fpMag fpOne
  accuracy : ∀ x, isFinite x = true → 0 ≤ fpUnits x → (fpUnits x : ℝ) / 2 ^ 1074 ≤ 38 →
    |(fpUnits (sin x) : ℝ) / 2 ^ 1074 - Real.sin ((fpUnits x : ℝ) / 2 ^ 1074)| ≤ eps
  nonfinite : ∀ x, isFinite x = false → isNaN (sin x) = true

/-- The first n terms of the power series of the sine at q. -/
def sineSeries (q : ℚ) : Nat → ℚ
  | 0 => 0
  | n + 1 => sineSeries q n + (-1) ^ n * q ^ (2 * n + 1) / ((2 * n + 1).factorial : ℚ)

/-- The F64 of the sign of r and of the magnitude of r cut to 40 binary places, at most 1.0. -/
def fortyPlaces (r : ℚ) : F64 :=
  fpPack (decide (r < 0)) (roundMag (min ⌊|r| * 2 ^ 40⌋₊ (2 ^ 40) * pow2 1034) 1)

/-- An executable sine that R104 admits (Laws/Sine.lean: `referenceSine_admissible`): 75 terms of the series at the
argument cut to 64 binary places. The engine's sine is not this one: it is only the reason one exists. -/
def referenceSine (x : F64) : F64 :=
  if isFinite x then fortyPlaces (sineSeries ((fpUnits x / (pow2 1010 : Int) : Int) / 2 ^ 64) 75)
  else 0x7FF8000000000000#64

end Sys2Proof.Machine
end

