-- ==== Sys2Proof/Laws/Sine.lean ====
section
/-! SUPPORT. The reference sine has the properties R104 asks (42_waveform.md P2 to P5), so admissible sines exist. -/

namespace Sys2Proof.Machine

/-- Every magnitude of at most 53 bits, on a grid of at least 2^52 units, is that of a pattern. -/
theorem exists_lowMag_eq (k e : Nat) (hk : k < 2 ^ 53) (he : 52 ≤ e) : ∃ c, lowMag c = k * 2 ^ e := by
  rcases Nat.eq_zero_or_pos k with rfl | hpos
  · exact ⟨0, by rw [lowMag_zero, Nat.zero_mul]⟩
  · have hlog : Nat.log2 k < 53 := (Nat.log2_lt (by omega)).mpr hk
    have hle : 2 ^ Nat.log2 k ≤ k := Nat.log2_self_le (by omega)
    have hlt : k < 2 ^ (Nat.log2 k + 1) := Nat.lt_log2_self
    generalize Nat.log2 k = n at *
    have h1 : 2 ^ 52 ≤ k * 2 ^ (52 - n) := by
      calc 2 ^ 52 = 2 ^ n * 2 ^ (52 - n) := by rw [← pow_add]; congr 1; omega
        _ ≤ _ := Nat.mul_le_mul_right _ hle
    have h2 : k * 2 ^ (52 - n) ≤ 2 ^ 53 := by
      calc k * 2 ^ (52 - n) ≤ 2 ^ (n + 1) * 2 ^ (52 - n) := Nat.mul_le_mul_right _ hlt.le
        _ = 2 ^ 53 := by rw [← pow_add]; congr 1; omega
    refine ⟨(e - (52 - n)) * 2 ^ 52 + k * 2 ^ (52 - n), ?_⟩
    rw [lowMag_grid _ _ h2 (.inr h1), Nat.mul_assoc, ← pow_add]
    congr 2
    omega

/-- All `fortyPlaces` answers: the sign of r, and a magnitude that is no more than 1.0 and needs no rounding. -/
theorem fortyPlaces_eq (r : ℚ) : ∃ c, fortyPlaces r = fpPack (decide (r < 0)) c ∧ c ≤ fpLow fpOne ∧
    lowMag c = min ⌊|r| * 2 ^ 40⌋₊ (2 ^ 40) * 2 ^ 1034 := by
  have hk : min ⌊|r| * 2 ^ 40⌋₊ (2 ^ 40) ≤ 2 ^ 40 := Nat.min_le_right _ _
  unfold fortyPlaces
  generalize min ⌊|r| * 2 ^ 40⌋₊ (2 ^ 40) = k at *
  obtain ⟨c, hc⟩ := exists_lowMag_eq k 1034 (by omega) (by norm_num)
  have hone : lowMag (fpLow fpOne) = 2 ^ 40 * 2 ^ 1034 := by
    rw [show fpLow fpOne = 1022 * 2 ^ 52 + 2 ^ 52 from by decide, lowMag_grid _ _ (by norm_num) (.inr le_rfl),
      ← pow_add, ← pow_add]
  have hcone : c ≤ fpLow fpOne := by
    rw [← lowMag_strictMono.le_iff_le, hc, hone]
    exact Nat.mul_le_mul_right _ hk
  refine ⟨c, ?_, hcone, hc⟩
  rw [pow2_eq, ← hc, roundMag_exact (lowMag c) 1 c (by norm_num) (hcone.trans (by decide)) (by rw [Nat.one_mul])]

theorem fortyPlaces_range (r : ℚ) : isFinite (fortyPlaces r) = true ∧ fpMag (fortyPlaces r) ≤ fpMag fpOne := by
  obtain ⟨c, h, hc, -⟩ := fortyPlaces_eq r
  have hlow : fpLow (fortyPlaces r) ≤ fpLow fpOne := by rwa [h, fpLow_pack _ (lt_of_le_of_lt hc (fpLow_lt fpOne))]
  exact ⟨isFinite_of_low_le (by decide) hlow, (fpMag_le_iff _ _).mpr hlow⟩

/-- A rational below 1 + 2^-40 is cut by no more than 2^-40. -/
theorem fortyPlaces_near (r : ℚ) (hr : |r| < 1 + 1 / 2 ^ 40) :
    |(fpUnits (fortyPlaces r) : ℝ) / 2 ^ 1074 - r| ≤ 1 / 2 ^ 40 := by
  obtain ⟨c, h, hc, hmag⟩ := fortyPlaces_eq r
  have h0 : (0 : ℚ) ≤ |r| * 2 ^ 40 := by positivity
  have hfl := Nat.floor_le h0
  have hlt := Nat.lt_floor_add_one (|r| * 2 ^ 40)
  have hmin : min ⌊|r| * 2 ^ 40⌋₊ (2 ^ 40) = ⌊|r| * 2 ^ 40⌋₊ := by
    apply Nat.min_eq_left
    have : (⌊|r| * 2 ^ 40⌋₊ : ℚ) < 2 ^ 40 + 1 := by
      refine lt_of_le_of_lt hfl ?_
      calc |r| * 2 ^ 40 < (1 + 1 / 2 ^ 40) * 2 ^ 40 := by gcongr
        _ = 2 ^ 40 + 1 := by norm_num
    have : ⌊|r| * 2 ^ 40⌋₊ < 2 ^ 40 + 1 := by exact_mod_cast this
    omega
  rw [hmin] at hmag
  generalize ⌊|r| * 2 ^ 40⌋₊ = k at *
  have hpow : (2 : ℝ) ^ 1074 = 2 ^ 40 * 2 ^ 1034 := by rw [← pow_add]
  have hpos : (2 : ℝ) ^ 1034 ≠ 0 := by positivity
  have hcast : ((k * 2 ^ 1034 : Nat) : ℝ) = k * 2 ^ 1034 := by
    rw [Nat.cast_mul, Nat.cast_pow, Nat.cast_ofNat]
  have hq : |(k : ℝ) / 2 ^ 40 - abs (r : ℝ)| ≤ 1 / 2 ^ 40 := by
    have hfl' : (k : ℝ) ≤ |(r : ℝ)| * 2 ^ 40 := by exact_mod_cast hfl
    have hlt' : |(r : ℝ)| * 2 ^ 40 < k + 1 := by exact_mod_cast hlt
    generalize |(r : ℝ)| = a at *
    rw [show (k : ℝ) / 2 ^ 40 - a = ((k : ℝ) - a * 2 ^ 40) / 2 ^ 40 from by field_simp, abs_div,
      abs_of_pos (show (0 : ℝ) < 2 ^ 40 by positivity)]
    apply div_le_div_of_nonneg_right _ (by positivity)
    rw [abs_le]
    constructor <;> linarith
  rw [h, fpUnits_pack _ (lt_of_le_of_lt hc (fpLow_lt fpOne)), hmag, hpow]
  by_cases hn : r < 0
  · rw [if_pos (decide_eq_true hn), Int.cast_neg, Int.cast_natCast, hcast, neg_div, mul_div_mul_right _ _ hpos]
    rw [abs_of_neg (by exact_mod_cast hn : (r : ℝ) < 0)] at hq
    rw [show -((k : ℝ) / 2 ^ 40) - r = -((k : ℝ) / 2 ^ 40 - -r) from by ring, abs_neg]
    exact hq
  · rw [if_neg (by simpa using hn), Int.cast_natCast, hcast, mul_div_mul_right _ _ hpos]
    rw [abs_of_nonneg (by exact_mod_cast not_lt.mp hn : (0 : ℝ) ≤ r)] at hq
    exact hq

/-- The partial sums of the series are the imaginary parts of those of the exponential. -/
theorem sineSeries_eq_im (q : ℚ) (n : Nat) :
    ((sineSeries q n : ℚ) : ℝ) =
      (∑ m ∈ Finset.range (2 * n), (((q : ℝ) : ℂ) * Complex.I) ^ m / (m.factorial : ℂ)).im := by
  induction n with
  | zero => simp [sineSeries]
  | succ n ih =>
    have heven : ((((q : ℝ) : ℂ) * Complex.I) ^ (2 * n) / ((2 * n).factorial : ℂ)).im = 0 := by
      rw [show (((q : ℝ) : ℂ) * Complex.I) ^ (2 * n) / ((2 * n).factorial : ℂ)
          = (((q : ℝ) ^ (2 * n) * (-1) ^ n / ((2 * n).factorial : ℝ) : ℝ) : ℂ) from by
        rw [mul_pow, pow_mul Complex.I, Complex.I_sq]; push_cast; ring]
      exact Complex.ofReal_im _
    have hodd : ((((q : ℝ) : ℂ) * Complex.I) ^ (2 * n + 1) / ((2 * n + 1).factorial : ℂ)).im
        = (-1) ^ n * (q : ℝ) ^ (2 * n + 1) / ((2 * n + 1).factorial : ℝ) := by
      rw [show (((q : ℝ) : ℂ) * Complex.I) ^ (2 * n + 1) / ((2 * n + 1).factorial : ℂ)
          = (((-1) ^ n * (q : ℝ) ^ (2 * n + 1) / ((2 * n + 1).factorial : ℝ) : ℝ) : ℂ) * Complex.I from by
        rw [mul_pow, pow_succ Complex.I, pow_mul Complex.I, Complex.I_sq]; push_cast; ring]
      rw [Complex.im_ofReal_mul, Complex.I_im, mul_one]
    rw [show 2 * (n + 1) = 2 * n + 1 + 1 by omega, Finset.sum_range_succ, Finset.sum_range_succ, Complex.add_im,
      Complex.add_im, ← ih, heven, hodd, sineSeries]
    push_cast
    ring

/-- 75 terms are enough on [0, 38]. -/
theorem sineSeries_near (q : ℚ) (h0 : 0 ≤ q) (h38 : q ≤ 38) :
    |((sineSeries q 75 : ℚ) : ℝ) - Real.sin q| ≤ 1 / 2 ^ 60 := by
  have hq0 : (0 : ℝ) ≤ q := by exact_mod_cast h0
  have hq : (q : ℝ) ≤ 38 := by exact_mod_cast h38
  have hnorm : ‖((q : ℝ) : ℂ) * Complex.I‖ = q := by simp [abs_of_nonneg hq0]
  have h := Complex.exp_bound' (x := ((q : ℝ) : ℂ) * Complex.I) (n := 150) (by rw [hnorm]; norm_num; linarith)
  rw [hnorm] at h
  have him := (Complex.abs_im_le_norm _).trans h
  rw [Complex.sub_im, Complex.exp_ofReal_mul_I_im, ← sineSeries_eq_im q 75, abs_sub_comm] at him
  refine him.trans ?_
  have hnat : 38 ^ 150 * 2 * 2 ^ 60 ≤ Nat.factorial 150 := by decide +kernel
  have hreal : (38 : ℝ) ^ 150 * 2 * 2 ^ 60 ≤ (Nat.factorial 150 : ℝ) := by exact_mod_cast hnat
  have hfac : (0 : ℝ) < (Nat.factorial 150 : ℝ) := by positivity
  have hpow : (q : ℝ) ^ 150 ≤ 38 ^ 150 := pow_le_pow_left₀ hq0 hq 150
  generalize (Nat.factorial 150 : ℝ) = F at *
  generalize (38 : ℝ) ^ 150 = P at *
  generalize (q : ℝ) ^ 150 = Q at *
  rw [div_mul_eq_mul_div, div_le_div_iff₀ hfac (by positivity)]
  linarith [mul_le_mul_of_nonneg_right hpow (by positivity : (0 : ℝ) ≤ 2 * 2 ^ 60)]

/-- Cutting an argument to 64 binary places moves it by no more than 2^-64. -/
theorem cut_near (u : Int) : ((u / 2 ^ 1010 : Int) : ℝ) / 2 ^ 64 ≤ (u : ℝ) / 2 ^ 1074 ∧
    (u : ℝ) / 2 ^ 1074 ≤ ((u / 2 ^ 1010 : Int) : ℝ) / 2 ^ 64 + 1 / 2 ^ 64 := by
  have h1 := Int.mul_ediv_add_emod u (2 ^ 1010)
  have h2 := Int.emod_nonneg u (show (2 ^ 1010 : Int) ≠ 0 by positivity)
  have h3 := Int.emod_lt_of_pos u (show (0 : Int) < 2 ^ 1010 by positivity)
  have e : (2 : ℝ) ^ 1074 = 2 ^ 64 * 2 ^ 1010 := by rw [← pow_add]
  have hp : (0 : ℝ) < 2 ^ 1010 := by positivity
  have hcast : ((2 ^ 1010 : Int) : ℝ) = 2 ^ 1010 := by rw [Int.cast_pow, Int.cast_ofNat]
  have r1 : (2 : ℝ) ^ 1010 * ((u / 2 ^ 1010 : Int) : ℝ) + ((u % 2 ^ 1010 : Int) : ℝ) = u := by
    rw [← hcast, ← Int.cast_mul, ← Int.cast_add, h1]
  have r2 : (0 : ℝ) ≤ ((u % 2 ^ 1010 : Int) : ℝ) := by exact_mod_cast h2
  have r3 : ((u % 2 ^ 1010 : Int) : ℝ) ≤ 2 ^ 1010 := by rw [← hcast]; exact_mod_cast h3.le
  generalize ((u / 2 ^ 1010 : Int) : ℝ) = d at *
  generalize ((u % 2 ^ 1010 : Int) : ℝ) = m at *
  rw [e, ← r1]
  generalize (2 : ℝ) ^ 1010 = P at *
  constructor
  · rw [div_le_div_iff₀ (by positivity) (by positivity)]
    nlinarith
  · rw [← add_div, div_le_div_iff₀ (by positivity) (by positivity)]
    nlinarith

/-- The reference sine meets R104, with `EPS_SIN` = 2^-33. -/
theorem referenceSine_admissible : SineAdmissible referenceSine (1 / 2 ^ 33) where
  eps_le := le_rfl
  zero := by
    have h : sineSeries ((fpUnits fpZero / (pow2 1010 : Int) : Int) / 2 ^ 64) 75 = 0 := by
      rw [show fpUnits fpZero = 0 from by decide, Int.zero_ediv, Int.cast_zero, zero_div]
      have : ∀ n, sineSeries 0 n = 0 := fun n => by
        induction n with
        | zero => rfl
        | succ n ih => simp [sineSeries, ih]
      exact this 75
    rw [referenceSine, if_pos (by decide), h]
    obtain ⟨c, hc, -, hm⟩ := fortyPlaces_eq 0
    have h0 : lowMag c = 0 := by rw [hm, abs_zero, zero_mul, Nat.floor_zero, Nat.zero_min, Nat.zero_mul]
    rw [hc, lowMag_strictMono.injective (h0.trans lowMag_zero.symm)]
    decide
  range := fun x hx => by
    rw [referenceSine, if_pos hx]
    exact fortyPlaces_range _
  accuracy := fun x hx h0 h38 => by
    rw [referenceSine, if_pos hx, pow2_eq, Nat.cast_pow, Nat.cast_ofNat]
    obtain ⟨hlo, hhi⟩ := cut_near (fpUnits x)
    have hnonneg : 0 ≤ fpUnits x / 2 ^ 1010 := Int.ediv_nonneg h0 (by positivity)
    generalize fpUnits x / 2 ^ 1010 = d at *
    generalize (fpUnits x : ℝ) / 2 ^ 1074 = X at *
    have hqd : (((d : ℚ) / 2 ^ 64 : ℚ) : ℝ) = (d : ℝ) / 2 ^ 64 := by push_cast; rfl
    have hq0 : (0 : ℚ) ≤ (d : ℚ) / 2 ^ 64 := div_nonneg (by exact_mod_cast hnonneg) (by positivity)
    have hq38 : (d : ℚ) / 2 ^ 64 ≤ 38 := by
      have : (((d : ℚ) / 2 ^ 64 : ℚ) : ℝ) ≤ 38 := by rw [hqd]; exact hlo.trans h38
      exact_mod_cast this
    have hser := sineSeries_near _ hq0 hq38
    rw [← hqd] at hlo hhi
    generalize (d : ℚ) / 2 ^ 64 = q at *
    have hlip := Real.abs_sin_sub_sin_le (q : ℝ) X
    have hqX : |(q : ℝ) - X| ≤ 1 / 2 ^ 64 := by rw [abs_le]; constructor <;> linarith
    have hone : |((sineSeries q 75 : ℚ) : ℝ)| < 1 + 1 / 2 ^ 40 := by
      have h1 := Real.abs_sin_le_one (q : ℝ)
      have h2 := abs_sub_abs_le_abs_sub ((sineSeries q 75 : ℚ) : ℝ) (Real.sin q)
      have : (1 : ℝ) / 2 ^ 60 < 1 / 2 ^ 40 := by norm_num
      linarith
    have hone' : |sineSeries q 75| < 1 + 1 / 2 ^ 40 := by
      rw [← Rat.cast_lt (K := ℝ), Rat.cast_abs]
      push_cast
      exact hone
    have hnear := fortyPlaces_near (sineSeries q 75) hone'
    have key : (1 : ℝ) / 2 ^ 40 + 1 / 2 ^ 60 + 1 / 2 ^ 64 ≤ 1 / 2 ^ 33 := by norm_num
    generalize (fpUnits (fortyPlaces (sineSeries q 75)) : ℝ) / 2 ^ 1074 = Y at *
    calc |Y - Real.sin X|
        ≤ |Y - (sineSeries q 75 : ℚ)| + |((sineSeries q 75 : ℚ) : ℝ) - Real.sin q| + |Real.sin q - Real.sin X| := by
          have := abs_sub_le Y ((sineSeries q 75 : ℚ) : ℝ) (Real.sin X)
          have := abs_sub_le ((sineSeries q 75 : ℚ) : ℝ) (Real.sin q) (Real.sin X)
          linarith
      _ ≤ 1 / 2 ^ 33 := by linarith
  nonfinite := fun x hx => by
    rw [referenceSine, if_neg (by rw [hx]; decide)]
    decide

end Sys2Proof.Machine
end

