-- ==== Sys2Proof/Machine/SineUnit.lean ====
section
/-! DEFINITION. `SIN`, the open sine evaluator of the waveform unit (00_scope.md R9, 42_waveform.md R103, R104). -/

namespace Sys2Proof

open Sys2Proof.Machine in
/-- A value of the open parameters `SIN` and `EPS_SIN` together: any function with the properties R104 names, and
nothing else (42_waveform.md R103, R104). The default shows the type inhabited, as a constant without a body needs. -/
structure SineParameter where
  val : { p : (F64 → F64) × ℚ // SineAdmissible p.1 (p.2 : ℝ) } :=
    ⟨(referenceSine, 1 / 2 ^ 33), by
      have h := referenceSine_admissible
      norm_num at h ⊢
      exact h⟩
  deriving Inhabited

/-- FREE VALUE. `SIN` and `EPS_SIN`: nothing is known of them but the properties P1 to P5 of 42_waveform.md R104
(00_scope.md R9; log 6, safe). -/
opaque Config.sine : SineParameter

namespace Machine

/-- `SIN`, the engine's sine (42_waveform.md R103). -/
def sinUnit (x : F64) : F64 := Config.sine.val.1.1 x

/-- `EPS_SIN`, at most 2^-33 (42_waveform.md R104 P4). -/
def epsSin : ℚ := Config.sine.val.1.2

end Machine

end Sys2Proof
end

