-- ==== Sys2Proof/Machine/Waveform.lean ====
section
/-! DEFINITION. The waveform unit: the three recipes and their evaluation (42_waveform.md). -/

namespace Sys2Proof.Machine

/-- The harmonic numbers of the recipes (42_waveform.md R97). -/
inductive Harmonic where
  | k1
  | k2
  | k3
  | k4
  | k5
  | k6
  deriving DecidableEq, Repr

/-- `arg(k)`: theta for k = 1, else `fmul(K(k), theta)` (42_waveform.md R96; K(k): 43_numerics.md R122). -/
def harmonicArg (theta : F64) : Harmonic → F64
  | .k1 => theta
  | .k2 => fmul 0x4000000000000000#64 theta
  | .k3 => fmul 0x4008000000000000#64 theta
  | .k4 => fmul 0x4010000000000000#64 theta
  | .k5 => fmul 0x4014000000000000#64 theta
  | .k6 => fmul 0x4018000000000000#64 theta

/-- A recipe ((k1, 1), (k2, w2), (k3, w3)); the first weight is 1, with no multiplication (42_waveform.md R97). -/
structure Recipe where
  h1 : Harmonic
  h2 : Harmonic
  w2 : F64
  h3 : Harmonic
  w3 : F64
  deriving DecidableEq, Repr

/-- The recipe table (42_waveform.md R97). -/
def recipe : Instrument → Recipe
  | .piano => { h1 := .k1, h2 := .k2, w2 := fpW03, h3 := .k3, w3 := fpW02 }
  | .violin => { h1 := .k2, h2 := .k4, w2 := fpW04, h3 := .k6, w3 := fpW03 }
  | .trumpet => { h1 := .k1, h2 := .k3, w2 := fpW05, h3 := .k5, w3 := fpW04 }

/-- `Waveform(instr, phase)` for a given sine, in the evaluation order of 42_waveform.md R95 to R98. -/
def waveform (sin : F64 → F64) (instr : Instrument) (phase : F64) : F64 :=
  let theta := fmul fpTwoPi phase
  let r := recipe instr
  let s1 := sin (harmonicArg theta r.h1)
  let s2 := sin (harmonicArg theta r.h2)
  let s3 := sin (harmonicArg theta r.h3)
  fadd (fadd s1 (fmul r.w2 s2)) (fmul r.w3 s3)

end Sys2Proof.Machine
end

