-- ==== Sys2Proof/Machine/Ops.lean ====
section
/-! DEFINITION. The operations of the engine over its state: allocate, release, setDefaultInstrument, renderFrame.
Taking an exception and returning from one have no operation here: the engine has no trap entry, no trap return
and no saved state (60_exceptions.md R125, R134, R135). -/

namespace Sys2Proof.Machine

/-- The ghost result of `allocate` (40_voice_control.md R73): at no port, read by no command. -/
inductive AllocResult where
  | success (slot : Slot)
  | dropped
  deriving DecidableEq, Repr

/-- The ghost result of `release` (40_voice_control.md R73): at no port, read by no command. -/
inductive ReleaseResult where
  | success (slot : Slot)
  | notFound
  deriving DecidableEq, Repr

/-- The voice NOTE_ON writes, all six fields (40_voice_control.md R71). -/
def newVoice (f a : F64) (di : Instrument) : Voice :=
  { active := true, frequency := f, amplitude := a, phase := fpZero, increment := fdivFS f, instrument := di }

/-- `allocate(f, a)`: the lowest free slot is written whole; with none free nothing happens
(40_voice_control.md R71, 60_exceptions.md R126). -/
def allocate (f a : F64) (s : State) : AllocResult × State :=
  match firstFree s with
  | none => (.dropped, s)
  | some i => (.success i, s.setVoice i (newVoice f a s.di))

/-- `release(f)`: `active` of the first match is cleared, its other five fields kept; with no match nothing happens
(40_voice_control.md R74, 60_exceptions.md R127). -/
def release (f : F64) (s : State) : ReleaseResult × State :=
  match firstMatch s f with
  | none => (.notFound, s)
  | some i => (.success i, s.setVoice i { s.voice i with active := false })

/-- `setDefaultInstrument(k)`: a pure assignment to `DI` (40_voice_control.md R76). -/
def setDefaultInstrument (k : Instrument) (s : State) : State := { s with di := k }

/-- The wraparound control: one comparison and at most one subtraction (41_render_mix.md R87). -/
def wrapPhase (p : F64) : F64 := if fge p fpOne then fsub p fpOne else p

/-- The phase a RENDER stores: advance, then wrap (41_render_mix.md R86, R87). -/
def nextPhase (phase increment : F64) : F64 := wrapPhase (fadd phase increment)

/-- The term of an active voice, at the phase before this RENDER advances it (41_render_mix.md R83, R84). -/
def voiceTerm (sin : F64 → F64) (v : Voice) : F64 := fmul (waveform sin v.instrument v.phase) v.amplitude

/-- The body of RENDER's loop for slot i: the accumulators so far and the state so far (41_render_mix.md R80,
R82 to R87). A free slot is skipped. -/
def renderSlot (sin : F64 → F64) (acc : Frame × State) (i : Slot) : Frame × State :=
  let v := acc.2.voice i
  if v.active then
    let t := voiceTerm sin v
    ({ left := fadd acc.1.left t, right := fadd acc.1.right t },
      acc.2.setVoice i { v with phase := nextPhase v.phase v.increment })
  else acc

/-- `emit (l, r)`: append the frame to `OUT` (00_scope.md R16, 41_render_mix.md R88). -/
def emit (f : Frame) (s : State) : State := { s with out := s.out ++ [f] }

/-- `renderFrame()` for a given sine: both accumulators start at +0.0, the slots are visited in increasing index
order, the pair is emitted (41_render_mix.md R80, R81, R82, R88). -/
def renderFrame (sin : F64 → F64) (s : State) : State :=
  let done := slots.foldl (renderSlot sin) ({ left := fpZero, right := fpZero }, s)
  emit done.1 done.2

/-- The frame word `{left, right}` (30_encoding.md R64). -/
def frameWord (f : Frame) : FrameWord := f.left ++ f.right

end Sys2Proof.Machine
end

