-- ==== Sys2Proof/Machine/Render.lean ====
section
/-! DEFINITION. The meaning of RENDER (41_render_mix.md). -/

namespace Sys2Proof.Machine

/-- RENDER: `renderFrame` with the engine's open sine (41_render_mix.md R80; "Exceptions: none, for any state"). -/
def execRender (s : State) : Host.Outcome State Fault Refusal := .next (renderFrame sinUnit s)

end Sys2Proof.Machine
end

