-- ==== Sys2Proof/Machine/VoiceControl.lean ====
section
/-! DEFINITION. The meanings of NOTE_ON, NOTE_OFF, SET_INSTRUMENT and NOP (40_voice_control.md). Every one answers a
next state: "exceptions: none, ever" (R70). -/

namespace Sys2Proof.Machine

/-- What every NOP row does: nothing; "The state after NOP, including `OUT`, is bit-for-bit the state before it"
(40_voice_control.md R77). -/
def doNothing (s : State) : Host.Outcome State Fault Refusal := .next s

/-- NOP, op 0x00 (40_voice_control.md R77). -/
def execNop (s : State) : Host.Outcome State Fault Refusal := doNothing s

/-- NOTE_ON: the ghost result of `allocate` goes nowhere (40_voice_control.md R71, R73). -/
def execNoteOn (f a : F64) (s : State) : Host.Outcome State Fault Refusal := .next (allocate f a s).2

/-- NOTE_OFF: the ghost result of `release` goes nowhere (40_voice_control.md R74, R73). -/
def execNoteOff (f : F64) (s : State) : Host.Outcome State Fault Refusal := .next (release f s).2

/-- SET_INSTRUMENT with code 0: DI <- Piano (40_voice_control.md R76). -/
def execSetInstrumentPiano (s : State) : Host.Outcome State Fault Refusal := .next (setDefaultInstrument .piano s)

/-- SET_INSTRUMENT with code 1: DI <- Violin (40_voice_control.md R76). -/
def execSetInstrumentViolin (s : State) : Host.Outcome State Fault Refusal := .next (setDefaultInstrument .violin s)

/-- SET_INSTRUMENT with code 2: DI <- Trumpet (40_voice_control.md R76). -/
def execSetInstrumentTrumpet (s : State) : Host.Outcome State Fault Refusal := .next (setDefaultInstrument .trumpet s)

/-- SET_INSTRUMENT with code 3 is malformed and executes as NOP (30_encoding.md R61, 60_exceptions.md R128). -/
def execNopMalformedSetInstrument (s : State) : Host.Outcome State Fault Refusal := doNothing s

/-- Reserved op 0x05 executes as NOP (30_encoding.md R60). -/
def execNopReserved05 (s : State) : Host.Outcome State Fault Refusal := doNothing s

/-- Reserved op 0x06 to 0x07 executes as NOP (30_encoding.md R60). -/
def execNopReserved06 (s : State) : Host.Outcome State Fault Refusal := doNothing s

/-- Reserved op 0x08 to 0x0F executes as NOP (30_encoding.md R60). -/
def execNopReserved08 (s : State) : Host.Outcome State Fault Refusal := doNothing s

/-- Reserved op 0x10 to 0x1F executes as NOP (30_encoding.md R60). -/
def execNopReserved10 (s : State) : Host.Outcome State Fault Refusal := doNothing s

/-- Reserved op 0x20 to 0x3F executes as NOP (30_encoding.md R60). -/
def execNopReserved20 (s : State) : Host.Outcome State Fault Refusal := doNothing s

/-- Reserved op 0x40 to 0x7F executes as NOP (30_encoding.md R60). -/
def execNopReserved40 (s : State) : Host.Outcome State Fault Refusal := doNothing s

/-- Reserved op 0x80 to 0xFF executes as NOP (30_encoding.md R60). -/
def execNopReserved80 (s : State) : Host.Outcome State Fault Refusal := doNothing s

end Sys2Proof.Machine
end

