-- ==== Sys2Proof/Machine/Dispatch.lean ====
section
/-! DEFINITION. One arm per constructor of `Instr`, each a direct call of its meaning. -/

namespace Sys2Proof.Machine

def exec (i : Instr) (s : State) : Host.Outcome State Fault Refusal :=
  match i with
  | .nop => Sys2Proof.Machine.execNop s
  | .noteOn f a => Sys2Proof.Machine.execNoteOn f a s
  | .noteOff f => Sys2Proof.Machine.execNoteOff f s
  | .setInstrumentPiano => Sys2Proof.Machine.execSetInstrumentPiano s
  | .setInstrumentViolin => Sys2Proof.Machine.execSetInstrumentViolin s
  | .setInstrumentTrumpet => Sys2Proof.Machine.execSetInstrumentTrumpet s
  | .nopMalformedSetInstrument => Sys2Proof.Machine.execNopMalformedSetInstrument s
  | .render => Sys2Proof.Machine.execRender s
  | .nopReserved05 => Sys2Proof.Machine.execNopReserved05 s
  | .nopReserved06 _ => Sys2Proof.Machine.execNopReserved06 s
  | .nopReserved08 _ => Sys2Proof.Machine.execNopReserved08 s
  | .nopReserved10 _ => Sys2Proof.Machine.execNopReserved10 s
  | .nopReserved20 _ => Sys2Proof.Machine.execNopReserved20 s
  | .nopReserved40 _ => Sys2Proof.Machine.execNopReserved40 s
  | .nopReserved80 _ => Sys2Proof.Machine.execNopReserved80 s

end Sys2Proof.Machine
end

