-- ==== Sys2Proof/Machine/Step.lean ====
section
/-! DEFINITION. One step: accept the next command word, decode it, execute it. Nothing is fetched from a memory
(20_memory.md R50): the word comes from the host's queue. -/

namespace Sys2Proof.Machine

/-- Accept the next pending word and execute it whole (20_memory.md R44, R46, 30_encoding.md R63, R65). With no word
to execute the engine is idle and "keeps all its state" (60_exceptions.md R139). -/
def step (s : State) : Host.Outcome State Fault Refusal :=
  match s.pending with
  | [] => .next s
  | cw :: rest => exec (decode cw) (s.setPending rest)

/-- The state in which the next word step accepts is the given one, numbered as spec/opcode_table.json numbers it
(log 3, log 10). -/
def State.withFetchWord (s : State) (nbits w : Nat) : State :=
  s.setPending (tableWord nbits w :: s.pending)

end Sys2Proof.Machine
end

