-- ==== Sys2Proof/Machine/Assembler.lean ====
section
/-! DEFINITION. The assembler syntax: lines, number literals, pseudo-commands, and the text they are read from
(30_encoding.md R67 to R69). -/

namespace Sys2Proof.Machine

/-- A number literal: the decimal `± digits x 10^-places`, or a pattern written as `0x` and 16 hex digits
(30_encoding.md R69). -/
inductive Literal where
  | decimal (negative : Bool) (digits places : Nat)
  | pattern (bits : F64)
  deriving DecidableEq, Repr

/-- `F(<x>)`: the binary64 pattern nearest to the decimal, ties to even, or the pattern itself (30_encoding.md R69).
DESIGN CHOICE, safe: the literal's sign is kept when the value rounds to zero (log 16). -/
def literalBits : Literal → F64
  | .decimal negative digits places => fpPack negative (roundMag (digits * pow2 1074) (10 ^ places))
  | .pattern bits => bits

/-- A line of assembler text (30_encoding.md R67, R68). -/
inductive AsmLine where
  | noteOn (frequency amplitude : Literal)
  | noteOff (frequency : Literal)
  | instrument (k : Instrument)
  | render
  | nop
  | word (cw : CmdWord)
  | renderMany (n : Nat)
  | block
  deriving DecidableEq, Repr

/-- The command words of a line (30_encoding.md R67; `RENDER n` and `BLOCK`: R68). -/
def assembleLine : AsmLine → List CmdWord
  | .noteOn f a => [mkCmdWord 0x01 (literalBits f) (literalBits a)]
  | .noteOff f => [mkCmdWord 0x02 (literalBits f) 0]
  | .instrument .piano => [mkCmdWord 0x03 0 0]
  | .instrument .violin => [mkCmdWord 0x03 0 1]
  | .instrument .trumpet => [mkCmdWord 0x03 0 2]
  | .render => [mkCmdWord 0x04 0 0]
  | .nop => [mkCmdWord 0x00 0 0]
  | .word cw => [cw]
  | .renderMany n => List.replicate n (mkCmdWord 0x04 0 0)
  | .block => List.replicate Config.BLOCK (mkCmdWord 0x04 0 0)

/-- The command words of a text, line after line (30_encoding.md R67). -/
def assemble (lines : List AsmLine) : List CmdWord := lines.flatMap assembleLine

/-- The value of a decimal digit. -/
def digitValue (c : Char) : Option Nat :=
  if '0'.toNat ≤ c.toNat ∧ c.toNat ≤ '9'.toNat then some (c.toNat - '0'.toNat) else none

/-- The value of a hexadecimal digit, either case. -/
def hexValue (c : Char) : Option Nat :=
  if 'A'.toNat ≤ c.toNat ∧ c.toNat ≤ 'F'.toNat then some (c.toNat - 'A'.toNat + 10)
  else if 'a'.toNat ≤ c.toNat ∧ c.toNat ≤ 'f'.toNat then some (c.toNat - 'a'.toNat + 10)
  else digitValue c

/-- Digits read in a base, from the left, onto a value. -/
def readDigits (value : Char → Option Nat) (base : Nat) : Nat → List Char → Option Nat
  | n, [] => some n
  | n, c :: cs =>
    match value c with
    | some d => readDigits value base (base * n + d) cs
    | none => none

/-- A decimal integer of at least one digit. -/
def readDecimal (cs : List Char) : Option Nat := if cs = [] then none else readDigits digitValue 10 0 cs

/-- Exactly `count` hexadecimal digits. -/
def readHex (count : Nat) (cs : List Char) : Option Nat :=
  if cs.length = count then readDigits hexValue 16 0 cs else none

/-- The characters before and after the first decimal point, if there is one. -/
def splitPoint : List Char → List Char × Option (List Char)
  | [] => ([], none)
  | c :: cs => if c = '.' then ([], some cs) else (c :: (splitPoint cs).1, (splitPoint cs).2)

/-- Digits, with at most one decimal point between digits (number syntax: DESIGN CHOICE, log 16). -/
def readUnsigned (negative : Bool) (cs : List Char) : Option Literal :=
  match splitPoint cs with
  | (whole, none) => (readDecimal whole).map (fun n => .decimal negative n 0)
  | (whole, some fraction) =>
    match readDecimal whole, readDecimal fraction with
    | some _, some _ => (readDecimal (whole ++ fraction)).map (fun n => .decimal negative n fraction.length)
    | _, _ => none

/-- A number literal's text (30_encoding.md R69). -/
def readLiteral : List Char → Option Literal
  | '0' :: 'x' :: cs => (readHex 16 cs).map (fun n => .pattern (BitVec.ofNat 64 n))
  | '-' :: cs => readUnsigned true cs
  | cs => readUnsigned false cs

/-- The tokens of a line, separated by spaces (30_encoding.md R67): the first token's characters and the rest. -/
def tokensFrom : List Char → List Char × List (List Char)
  | [] => ([], [])
  | c :: cs =>
    let (word, rest) := tokensFrom cs
    if c = ' ' then ([], if word = [] then rest else word :: rest) else (c :: word, rest)

/-- The non-empty tokens of a line. -/
def tokens (line : List Char) : List (List Char) :=
  let (word, rest) := tokensFrom line
  if word = [] then rest else word :: rest

/-- The instrument keywords (30_encoding.md R67). -/
def readInstrument (t : List Char) : Option Instrument :=
  if t = ['P', 'I', 'A', 'N', 'O'] then some .piano
  else if t = ['V', 'I', 'O', 'L', 'I', 'N'] then some .violin
  else if t = ['T', 'R', 'U', 'M', 'P', 'E', 'T'] then some .trumpet
  else none

/-- A line of text as a line of the assembler, keywords in upper case; none where the text is no line
(30_encoding.md R67, R68). -/
def readLine (line : List Char) : Option AsmLine :=
  match tokens line with
  | [k] =>
    if k = ['R', 'E', 'N', 'D', 'E', 'R'] then some .render
    else if k = ['N', 'O', 'P'] then some .nop
    else if k = ['B', 'L', 'O', 'C', 'K'] then some .block
    else none
  | [k, x] =>
    if k = ['R', 'E', 'N', 'D', 'E', 'R'] then (readDecimal x).map .renderMany
    else if k = ['I', 'N', 'S', 'T', 'R', 'U', 'M', 'E', 'N', 'T'] then (readInstrument x).map .instrument
    else if k = ['.', 'w', 'o', 'r', 'd'] then (readHex 34 x).map (fun n => .word (BitVec.ofNat 136 n))
    else none
  | [k, x, f] =>
    if k = ['N', 'O', 'T', 'E'] ∧ x = ['O', 'F', 'F'] then (readLiteral f).map .noteOff else none
  | [k, x, f, a] =>
    if k = ['N', 'O', 'T', 'E'] ∧ x = ['O', 'N'] then
      match readLiteral f, readLiteral a with
      | some f', some a' => some (.noteOn f' a')
      | _, _ => none
    else none
  | _ => none

end Sys2Proof.Machine
end

