-- ==== Sys2Proof/Machine/Run.lean ====
section
/-! DEFINITION. A run: the fold of Step over a command sequence (20_memory.md R46, 70_reset_and_hazards.md R154). -/

namespace Sys2Proof.Machine

/-- `Step(cw, s)`: executing `Decode(cw)` on state s (30_encoding.md R63). -/
def stepWord (cw : CmdWord) (s : State) : Host.Outcome State Fault Refusal := exec (decode cw) s

/-- Step(c_n, ... Step(c_2, Step(c_1, s))) for the words c_1, ..., c_n (20_memory.md R46). -/
def runWords : List CmdWord → State → Host.Outcome State Fault Refusal
  | [], s => .next s
  | cw :: rest, s =>
    match stepWord cw s with
    | .next t => runWords rest t
    | .fault r => .fault r
    | .refused r => .refused r

/-- How many of the words are RENDER commands (70_reset_and_hazards.md R154). -/
def renderCount (words : List CmdWord) : Nat := words.countP (fun cw => decode cw == .render)

end Sys2Proof.Machine
end

