-- ==== Sys2Proof/Machine/Ports.lean ====
section
/-! DEFINITION. What the outside world does to the engine between commands: the host sends words, the sink takes
frames, `rst` is asserted (30_encoding.md R65, R66, 70_reset_and_hazards.md R140 to R143); and how the two ports meet
in a cycle, where a RENDER may wait for the sink (R153). Clock counts are left out (log 8). -/

namespace Sys2Proof.Machine

/-- The host puts words behind those it has still to deliver: delivery in order, each once (20_memory.md R45,
30_encoding.md R65). -/
def hostSend (words : List CmdWord) (s : State) : State := s.setPending (s.pending ++ words)

/-- `frame_valid`: there is a frame the sink has not taken (30_encoding.md R66). -/
def frameValid (s : State) : Bool := decide (s.taken < s.out.length)

/-- The sink takes the next frame, in the order of `OUT` (10_state.md R30, 30_encoding.md R66). -/
def sinkTake (s : State) : Option (FrameWord × State) :=
  match s.out[s.taken]? with
  | none => none
  | some f => some (frameWord f, s.setTaken (s.taken + 1))

/-- The sink's side of one cycle: with `frame_ready` = 1 it takes a frame if there is one (30_encoding.md R66). -/
def sinkAccept (frameReady : Bool) (s : State) : State :=
  if frameReady then
    match sinkTake s with
    | some (_, t) => t
    | none => s
  else s

/-- `cmd_ready`: no command is in execution. A RENDER is in execution until its frame "has been transferred or stored
in an output buffer of the implementation's choosing" (30_encoding.md R65, R66; the buffer's depth is free, log 20). -/
def cmdReady (s : State) : Bool := decide (s.out.length - s.taken ≤ Config.outputDepth)

/-- One cycle of the two ports: the sink's side, then, with `cmd_ready` = 1, the next command the host has to deliver;
with `cmd_ready` = 0 the engine waits, its state intact (30_encoding.md R65, R66, 70_reset_and_hazards.md R153).
DESIGN CHOICE, safe: the order of the two in a cycle, and a command executed in the cycle that accepts it (log 20). -/
def portCycle (frameReady : Bool) (s : State) : Host.Outcome State Fault Refusal :=
  if cmdReady (sinkAccept frameReady s) then step (sinkAccept frameReady s) else .next (sinkAccept frameReady s)

/-- The first n cycles under a sink that holds `frame_ready` at the given value in each. -/
def portRun (frameReady : Nat → Bool) : Nat → State → Host.Outcome State Fault Refusal
  | 0, s => .next s
  | n + 1, s =>
    match portRun frameReady n s with
    | .next t => portCycle (frameReady n) t
    | .fault r => .fault r
    | .refused r => .refused r

/-- `rst` asserted and released: the reset state whatever came before (70_reset_and_hazards.md R140, R142); the words
the host has still to deliver stay with the host (R143; DESIGN CHOICE, log 9). -/
def assertReset (s : State) : State := State.reset.setPending s.pending

/-- All that leaves the engine: the frame words of `OUT` (10_state.md R39). -/
def observe (s : State) : List FrameWord := s.out.map frameWord

end Sys2Proof.Machine
end

