-- ==== Sys2Proof/Safety.lean ====
section
/-! DEFINITION. What claims are stated in: the premises on the host's commands, the ranges of phases and frames, and
the invariants of the state. No run of the engine stops (60_exceptions.md R125); what can be lost is a range. -/

namespace Sys2Proof.Machine

/-- r is the exact value `num / den` units of 2^-1074 rounded to nearest, ties to even: no F64 is nearer, an infinity
counted at 2^1024, and one of another value as near leaves r with fraction bit 0 = 0 (43_numerics.md R111). -/
def NearestEven (num : Int) (den : Nat) (r : F64) : Prop :=
  isNaN r = false ∧ ∀ c, isNaN c = false →
    |num - den * fpUnits r| ≤ |num - den * fpUnits c| ∧
    (|num - den * fpUnits r| = |num - den * fpUnits c| → fpUnits c = fpUnits r ∨ r.getLsbD 0 = false)

/-- 0 <= x < 1 as a value, finite: the premise on an increment (10_state.md R34; -0.0 counts as 0). -/
def inUnitInterval (x : F64) : Bool := isFinite x && decide (0 ≤ fpUnits x ∧ fpUnits x < fpUnits fpOne)

/-- A phase in [0,1) that is not -0.0 (10_state.md R34, 41_render_mix.md R92). -/
def phaseInRange (x : F64) : Bool := inUnitInterval x && !fpSign x

/-- 2^1000, the bound of `AmpFinite` (70_reset_and_hazards.md R145). -/
def fpTwoPow1000 : F64 := 0x7E70000000000000#64

/-- Finite, with magnitude at most 2^1000 (70_reset_and_hazards.md R145, `AmpFinite`). -/
def amplitudeFinite (a : F64) : Bool := isFinite a && decide (fpMag a ≤ fpMag fpTwoPow1000)

/-- Finite, above 0 and below 44100.0 (70_reset_and_hazards.md R145, `FreqInRange`). -/
def frequencyInRange (f : F64) : Bool := isFinite f && decide (0 < fpUnits f ∧ fpUnits f < fpUnits fpFS)

/-- 0 <= a <= 1 (70_reset_and_hazards.md R145, `AmpIntended`). -/
def amplitudeIntended (a : F64) : Bool := isFinite a && decide (0 ≤ fpUnits a ∧ fpUnits a ≤ fpUnits fpOne)

/-- Premise `FreqInRange`: every NOTE_ON of the words has its frequency in range (70_reset_and_hazards.md R145). -/
def FreqInRange (words : List CmdWord) : Prop :=
  ∀ cw ∈ words, ∀ f a, decode cw = .noteOn f a → frequencyInRange f = true

/-- Premise `AmpFinite` (70_reset_and_hazards.md R145). -/
def AmpFinite (words : List CmdWord) : Prop :=
  ∀ cw ∈ words, ∀ f a, decode cw = .noteOn f a → amplitudeFinite a = true

/-- Premise `AmpIntended` (70_reset_and_hazards.md R145). -/
def AmpIntended (words : List CmdWord) : Prop :=
  ∀ cw ∈ words, ∀ f a, decode cw = .noteOn f a → amplitudeIntended a = true

/-- Premise `SameLiteral`: the NOTE_OFF meant to end a note carries the same pattern as its NOTE_ON
(70_reset_and_hazards.md R145). -/
def SameLiteral (on off : CmdWord) : Prop := ∃ f a, decode on = .noteOn f a ∧ decode off = .noteOff f

/-- Premise `ExactlyOnce`: the words delivered are the words sent, each once, in order
(70_reset_and_hazards.md R145). -/
def ExactlyOnce (sent delivered : List CmdWord) : Prop := delivered = sent

/-- Premise `SinkDrains`, the fairness assumption on the sink: along the run, whenever a frame is offered in some cycle
the sink accepts one in that cycle or a later one (70_reset_and_hazards.md R145, R153). -/
def SinkDrains (frameReady : Nat → Bool) (s : State) : Prop :=
  ∀ n t, portRun frameReady n s = .next t → frameValid t = true → ∃ m, n ≤ m ∧ frameReady m = true

/-- Every active voice whose increment lies in [0,1) has its phase in [0,1) (10_state.md R34). -/
def PhasesInRange (s : State) : Prop :=
  ∀ i, (s.voice i).active = true → inUnitInterval (s.voice i).increment = true →
    phaseInRange (s.voice i).phase = true

/-- Every active voice's increment is its frequency divided by FS (10_state.md R26). -/
def IncrementsDerived (s : State) : Prop :=
  ∀ i, (s.voice i).active = true → (s.voice i).increment = fdivFS (s.voice i).frequency

/-- Both halves of every emitted frame are the same bits (41_render_mix.md R91). -/
def FramesMono (s : State) : Prop := ∀ f ∈ s.out, f.left = f.right

/-- The sink has taken no frame that was not emitted (10_state.md R30). -/
def TakenWithin (s : State) : Prop := s.taken ≤ s.out.length

/-- The invariant of the engine: of every state, not only of those a run reaches, each step keeps it. -/
structure EngineInv (s : State) : Prop where
  phases     : PhasesInRange s
  increments : IncrementsDerived s
  frames     : FramesMono s
  taken      : TakenWithin s

/-- What FreqInRange and AmpFinite buy: every active voice has its increment in [0,1), its phase in [0,1) and an
amplitude of at most 2^1000 (70_reset_and_hazards.md R145). -/
def VoicesInPremise (s : State) : Prop :=
  ∀ i, (s.voice i).active = true → inUnitInterval (s.voice i).increment = true ∧
    phaseInRange (s.voice i).phase = true ∧ amplitudeFinite (s.voice i).amplitude = true

/-- Two states that differ at most in the five data fields of free slots, and in nothing the host or the sink holds
(10_state.md R37). -/
def SameButFreeData (s t : State) : Prop :=
  s.di = t.di ∧ s.out = t.out ∧ s.taken = t.taken ∧ s.pending = t.pending ∧
    ∀ i, (s.voice i).active = (t.voice i).active ∧ ((s.voice i).active = true → s.voice i = t.voice i)

/-- The run has ended: no word is left to execute and the sink has taken every frame (70_reset_and_hazards.md R154). -/
def RunEnded (s : State) : Prop := s.pending = [] ∧ s.taken = s.out.length

end Sys2Proof.Machine
end

