-- ==== Sys2Proof/Certificates/Slice0/Obligations.lean ====
section
/-! DEFINITION. The statements for the provers, from the numbered rules of spec/. -/

open Sys2Proof Sys2Proof.Machine

/-! ### Encoding -/

/-- 30_encoding.md R63. The field slices and the if-chain are the rule's own; "Nop" is any row that executes as NOP. -/
def Obligations.DecodeIsTheRulesDecode : Prop :=
  ∀ cw : CmdWord,
    (cw.extractLsb' 128 8 = 0x01 → decode cw = .noteOn (cw.extractLsb' 64 64) (cw.extractLsb' 0 64)) ∧
    (cw.extractLsb' 128 8 = 0x02 → decode cw = .noteOff (cw.extractLsb' 64 64)) ∧
    (cw.extractLsb' 128 8 = 0x03 → cw.extractLsb' 0 2 = 0 → decode cw = .setInstrumentPiano) ∧
    (cw.extractLsb' 128 8 = 0x03 → cw.extractLsb' 0 2 = 1 → decode cw = .setInstrumentViolin) ∧
    (cw.extractLsb' 128 8 = 0x03 → cw.extractLsb' 0 2 = 2 → decode cw = .setInstrumentTrumpet) ∧
    (cw.extractLsb' 128 8 = 0x04 → decode cw = .render) ∧
    (cw.extractLsb' 128 8 ≠ 0x01 → cw.extractLsb' 128 8 ≠ 0x02 → cw.extractLsb' 128 8 ≠ 0x04 →
      (cw.extractLsb' 128 8 = 0x03 → cw.extractLsb' 0 2 = 3) → (decode cw).isNop = true) ∧
    ∀ s, stepWord cw s = exec (decode cw) s ∧ ∃ t, stepWord cw s = .next t

/-- The rows of spec/opcode_table.json "are disjoint and together cover all 2^136 words" (30_encoding.md, before R52),
and the decoder reads from a word the constructor of the one row that selects it. -/
def Obligations.DecodeReadsTheOneRowThatSelectsTheWord : Prop :=
  ∀ (cw : CmdWord) (n : Nat) (r : OpRow), opcodeTable[n]? = some r → (r.selects cw = true ↔ n = (decode cw).row)

/-- No bit of a command is dropped by its encoding: all of `Instr`, every operand (30_encoding.md R53, R54, R67). -/
def Obligations.EncodeThenDecodeGivesTheInstructionBack : Prop :=
  ∀ i : Instr, i.wellFormed = true → decode (encode i) = i

/-- Every word decodes to a well-formed instruction, whose encoding has the word's opcode, and the word's used operands
(30_encoding.md R53, R63). -/
def Obligations.DecodeThenEncodeKeepsTheUsedFields : Prop :=
  ∀ cw : CmdWord, (decode cw).wellFormed = true ∧ cwOp (encode (decode cw)) = cwOp cw ∧
    (cwOp cw = 0x01 → encode (decode cw) = cw) ∧
    (cwOp cw = 0x02 → cwA (encode (decode cw)) = cwA cw) ∧
    (cwOp cw = 0x03 → cwCode (encode (decode cw)) = cwCode cw)

/-- 30_encoding.md R62 (its first sentence): a field a command does not use may hold any value. -/
def Obligations.IgnoredFieldsDoNotChangeTheCommand : Prop :=
  ∀ (op : BitVec 8) (a b a' b' : F64),
    (op = 0x02 → decode (mkCmdWord op a b) = decode (mkCmdWord op a b')) ∧
    (op = 0x03 → b.extractLsb' 0 2 = b'.extractLsb' 0 2 →
      decode (mkCmdWord op a b) = decode (mkCmdWord op a' b')) ∧
    (op ≠ 0x01 → op ≠ 0x02 → op ≠ 0x03 → decode (mkCmdWord op a b) = decode (mkCmdWord op a' b'))

/-- Words written out from the encodings of 30_encoding.md R54 and R67 (95_test_vectors.md T1). -/
def Obligations.WrittenOutWordsDecode : Prop :=
  decode 0x0000000000000000000000000000000000 = .nop ∧
  decode 0x01407B8000000000003FE0000000000000 = .noteOn 0x407B800000000000 0x3FE0000000000000 ∧
  decode 0x02407B800000000000FFFFFFFFFFFFFFFF = .noteOff 0x407B800000000000 ∧
  decode 0x03FFFFFFFFFFFFFFFFFFFFFFFFFFFFFFFD = .setInstrumentViolin ∧
  decode 0x0300000000000000000000000000000007 = .nopMalformedSetInstrument ∧
  decode 0x04DEADBEEFDEADBEEF0123456789ABCDEF = .render ∧
  decode 0x80407B8000000000003FE0000000000000 = .nopReserved80 0x80

/-- 30_encoding.md R60 and R61: a reserved opcode and a SET_INSTRUMENT with code 3 execute as NOP. -/
def Obligations.ReservedAndMalformedWordsChangeNothing : Prop :=
  ∀ (cw : CmdWord) (s : State),
    (0x05 ≤ (cw.extractLsb' 128 8).toNat → stepWord cw s = .next s) ∧
    (cw.extractLsb' 128 8 = 0x03 → cw.extractLsb' 0 2 = 3 → stepWord cw s = .next s)

/-- 60_exceptions.md R125: every command, in every state, with every operand, has a next state, and so has every
step. All constructors of `Instr`. -/
def Obligations.EveryCommandAndEveryStepCompletes : Prop :=
  (∀ (i : Instr) (s : State), ∃ t, exec i s = .next t) ∧ ∀ s : State, ∃ t, step s = .next t

/-- When the next pending word is `cw`, a step is the meaning of the instruction `cw` decodes to, at the state with
that word taken from the queue; with no word the engine keeps all its state (30_encoding.md R63, 60_exceptions.md R139;
the queue is the model's own, log 3). -/
def Obligations.StepRunsTheDecodedInstruction : Prop :=
  (∀ (s : State) (cw : CmdWord) (rest : List CmdWord), s.pending = cw :: rest →
    step s = exec (decode cw) { s with pending := rest }) ∧
  (∀ s : State, s.pending = [] → step s = .next s) ∧
  ∀ (s : State) (i : Instr), i.wellFormed = true →
    step (s.withFetchWord 136 (encode i).toNat) = exec i s

/-! ### Voice control -/

/-- 40_voice_control.md R71 and R72, 60_exceptions.md R126: NOTE_ON, every form: the lowest free slot is written whole
and nothing else changes; with all slots active nothing changes; the increments of R71 (b); the rule's example. -/
def Obligations.NoteOnWritesTheLowestFreeSlot : Prop :=
  (∀ (f a : F64) (s : State) (i : Slot), (s.voice i).active = false → (∀ j < i, (s.voice j).active = true) →
    ∃ t, exec (.noteOn f a) s = .next t ∧
      t.voice i = { active := true, frequency := f, amplitude := a, phase := 0x0000000000000000,
                    increment := fdivFS f, instrument := s.di } ∧
      (∀ j, j ≠ i → t.voice j = s.voice j) ∧
      t.di = s.di ∧ t.out = s.out ∧ t.taken = s.taken ∧ t.pending = s.pending) ∧
  (∀ (f a : F64) (s : State), (∀ i, (s.voice i).active = true) → exec (.noteOn f a) s = .next s) ∧
  (fdivFS 0x0000000000000000 = 0x0000000000000000 ∧ ∀ f,
    (isNaN f = false → fpSign (fdivFS f) = fpSign f) ∧ (isInf f = true → isInf (fdivFS f) = true) ∧
    (isNaN f = true → isNaN (fdivFS f) = true)) ∧
  ∃ t, stepWord 0x01407B8000000000003FE0000000000000 State.reset = .next t ∧
    t.voice 0 = { active := true, frequency := 0x407B800000000000, amplitude := 0x3FE0000000000000,
                  phase := 0x0000000000000000, increment := 0x3F846EFDCB4A6B82, instrument := .piano } ∧
    ∀ j, j ≠ 0 → t.voice j = State.reset.voice j

/-- 40_voice_control.md R74 and R75, 60_exceptions.md R127: NOTE_OFF clears `active` of the lowest active slot whose
frequency is equal (IEEE equality: neither a NaN, and the same pattern or both zero), and changes nothing else; with no
such slot nothing changes. -/
def Obligations.NoteOffClearsTheLowestMatch : Prop :=
  ∀ (f : F64) (s : State),
    let matches_ := fun i : Slot => (s.voice i).active = true ∧ isNaN (s.voice i).frequency = false ∧
      isNaN f = false ∧ ((s.voice i).frequency = f ∨ isZero (s.voice i).frequency = true ∧ isZero f = true)
    (∀ i, matches_ i → (∀ j < i, ¬ matches_ j) →
      ∃ t, exec (.noteOff f) s = .next t ∧
        t.voice i = { s.voice i with active := false } ∧ (∀ j, j ≠ i → t.voice j = s.voice j) ∧
        t.di = s.di ∧ t.out = s.out ∧ t.taken = s.taken ∧ t.pending = s.pending) ∧
    ((∀ i, ¬ matches_ i) → exec (.noteOff f) s = .next s)

/-- 40_voice_control.md R76: SET_INSTRUMENT with code 0, 1, 2 assigns DI and changes nothing else; code 3 never reaches
it; the rule's example. -/
def Obligations.SetInstrumentAssignsTheDefault : Prop :=
  (∀ s : State,
    exec .setInstrumentPiano s = .next { s with di := .piano } ∧
    exec .setInstrumentViolin s = .next { s with di := .violin } ∧
    exec .setInstrumentTrumpet s = .next { s with di := .trumpet } ∧
    exec .nopMalformedSetInstrument s = .next s) ∧
  ∀ s : State, (s.voice 0).active = false → ∀ f a, ∃ t,
    runWords [0x0300000000000000000000000000000002, encode (.noteOn f a)] s = .next t ∧
      t.di = .trumpet ∧ (t.voice 0).instrument = .trumpet

/-- 40_voice_control.md R77: every row that executes as NOP leaves the whole state as it is: the constructors `nop`,
`nopMalformedSetInstrument` and the seven `nopReserved..`; a word with op 0x00, whatever its operands; the rule's
example. -/
def Obligations.NopChangesNothing : Prop :=
  (∀ (i : Instr) (s : State), i.isNop = true → exec i s = .next s) ∧
  (∀ (a b : F64) (s : State), stepWord (mkCmdWord 0x00 a b) s = .next s) ∧
  ∀ s : State, stepWord 0xFF00000000000000000000000000000000 s = .next s

/-- 40_voice_control.md R78: the only moves of an `active` bit, over all instructions. -/
def Obligations.ActiveBitsMoveOnlyByAllocationAndRelease : Prop :=
  ∀ (i : Instr) (s t : State) (j : Slot), exec i s = .next t →
    ((s.voice j).active = false → (t.voice j).active = true →
      (∃ f a, i = .noteOn f a) ∧ ∀ k < j, (s.voice k).active = true) ∧
    ((s.voice j).active = true → (t.voice j).active = false →
      ∃ f, i = .noteOff f ∧ feq (s.voice j).frequency f = true ∧
        ∀ k < j, (s.voice k).active = true → feq (s.voice k).frequency f = false) ∧
    ((s.voice j).active = false → (∀ k < j, (s.voice k).active = true) →
      ∀ f a, i = .noteOn f a → (t.voice j).active = true) ∧
    ∀ f, i = .noteOff f → (s.voice j).active = true → feq (s.voice j).frequency f = true →
      (∀ k < j, (s.voice k).active = true → feq (s.voice k).frequency f = false) → (t.voice j).active = false

/-- 10_state.md R36: over all instructions, a slot's increment, frequency, amplitude and instrument change only by a
NOTE_ON that allocates that slot. -/
def Obligations.VoiceDataIsFixedUntilTheSlotIsAllocated : Prop :=
  ∀ (i : Instr) (s t : State) (j : Slot), exec i s = .next t →
    ((t.voice j).increment = (s.voice j).increment ∧ (t.voice j).frequency = (s.voice j).frequency ∧
      (t.voice j).amplitude = (s.voice j).amplitude ∧ (t.voice j).instrument = (s.voice j).instrument) ∨
    ((∃ f a, i = .noteOn f a) ∧ (s.voice j).active = false ∧ ∀ k < j, (s.voice k).active = true)

/-- 40_voice_control.md R79 (a): from any state with every slot free, 16 NOTE_ON commands fill slots 0 to 15 in order
of arrival and a 17th changes nothing. -/
def Obligations.PoolFillsInOrderOfArrival : Prop :=
  ∀ (s : State) (notes : List (F64 × F64)), (∀ i, (s.voice i).active = false) → notes.length = 16 →
    ∃ t, runWords (notes.map (fun n => encode (.noteOn n.1 n.2))) s = .next t ∧
      (∀ (i : Slot) (n : F64 × F64), notes[i.val]? = some n →
        t.voice i = { active := true, frequency := n.1, amplitude := n.2, phase := 0,
                      increment := fdivFS n.1, instrument := s.di }) ∧
      t.di = s.di ∧ t.out = s.out ∧ ∀ f a, exec (.noteOn f a) t = .next t

/-- 40_voice_control.md R79 (b), with the premise SameLiteral of 70_reset_and_hazards.md R145: a NOTE_ON and a NOTE_OFF
of the same frequency pattern, not a NaN, leave no active voice, and a second NOTE_OFF changes nothing. -/
def Obligations.NoteOnThenNoteOffLeavesNoVoice : Prop :=
  ∀ (s : State) (on off : CmdWord), (∀ i, (s.voice i).active = false) → SameLiteral on off →
    isNaN (cwA on) = false →
    ∃ t, runWords [on, off] s = .next t ∧ (∀ i, (t.voice i).active = false) ∧ t.out = s.out ∧ t.di = s.di ∧
      stepWord off t = .next t

/-- 40_voice_control.md R79 (c) and (d): two voices of one frequency; NOTE_OFF leaves the higher slot active, and the
next NOTE_ON goes to the lower, released slot. -/
def Obligations.DuplicateFrequencyReleasesTheLowerSlot : Prop :=
  ∀ (s : State) (f a b : F64), (∀ i, (s.voice i).active = false) → isNaN f = false →
    ∃ t, runWords [encode (.noteOn f a), encode (.noteOn f b), encode (.noteOff f)] s = .next t ∧
      (∀ i, (t.voice i).active = decide (i = 1)) ∧ (t.voice 1).frequency = f ∧ (t.voice 1).amplitude = b ∧
      ∀ g c, ∃ u, exec (.noteOn g c) t = .next u ∧ (u.voice 0).active = true ∧ (u.voice 0).frequency = g ∧
        (u.voice 0).amplitude = c ∧ ∀ j, j ≠ 0 → u.voice j = t.voice j

/-! ### RENDER -/

/-- The loop of 41_render_mix.md R80 with R82 to R88: RENDER in closed form, every state. The emitted halves are the left fold, from +0.0,
of the terms of the active slots in increasing index order, each term at the phase before the advance; each active
voice's phase is advanced and wrapped once; nothing else changes (its frame, R90). -/
def Obligations.RenderEmitsTheFoldAndAdvancesThePhases : Prop :=
  ∀ s : State, ∃ t, exec .render s = .next t ∧
    (let active := (List.finRange 16).filter (fun i => (s.voice i).active)
     let term := fun i : Slot =>
       fmul (waveform sinUnit (s.voice i).instrument (s.voice i).phase) (s.voice i).amplitude
     let mix := active.foldl (fun acc i => fadd acc (term i)) 0x0000000000000000
     t.out = s.out ++ [{ left := mix, right := mix }]) ∧
    (∀ i, (s.voice i).active = true →
      let p := fadd (s.voice i).phase (s.voice i).increment
      (fge p 0x3FF0000000000000 = true → t.voice i = { s.voice i with phase := fsub p 0x3FF0000000000000 }) ∧
      (fge p 0x3FF0000000000000 = false → t.voice i = { s.voice i with phase := p })) ∧
    (∀ i, (s.voice i).active = false → t.voice i = s.voice i) ∧
    t.di = s.di ∧ t.taken = s.taken ∧ t.pending = s.pending

/-- 41_render_mix.md R81: with no active voice the frame is (+0.0, +0.0) and only OUT changes. -/
def Obligations.RenderOfNoVoiceEmitsZero : Prop :=
  ∀ s : State, (∀ i, (s.voice i).active = false) →
    exec .render s = .next { s with out := s.out ++ [{ left := 0x0000000000000000, right := 0x0000000000000000 }] }

/-- The example of 41_render_mix.md R80: NOTE ON 11025 1 and four RENDERs from reset. The terms are left as the
waveform values at phases 0, 0.25, 0.5, 0.75 (their values are of the open sine). -/
def Obligations.QuarterCycleExample : Prop :=
  let frameAt := fun p : F64 =>
    let half := fadd 0x0000000000000000 (fmul (waveform sinUnit .piano p) 0x3FF0000000000000)
    Frame.mk half half
  ∃ t, runWords [0x0140C58880000000003FF0000000000000, 0x0400000000000000000000000000000000,
      0x0400000000000000000000000000000000, 0x0400000000000000000000000000000000] State.reset = .next t ∧
    (t.voice 0).phase = 0x3FE8000000000000 ∧
    t.out = [frameAt 0x0000000000000000, frameAt 0x3FD0000000000000, frameAt 0x3FE0000000000000] ∧
    ∃ u, stepWord 0x0400000000000000000000000000000000 t = .next u ∧ (u.voice 0).phase = 0x0000000000000000 ∧
      u.out = [frameAt 0x0000000000000000, frameAt 0x3FD0000000000000, frameAt 0x3FE0000000000000,
        frameAt 0x3FE8000000000000]

/-- 41_render_mix.md R87 with its corner cases: one comparison, at most one subtraction; a NaN phase stays a NaN; from a
phase in range, 2.0 is reached only by an increment of 1.0 or more, and below 0 only by a negative one. -/
def Obligations.WrapSubtractsOneAtMostOnce : Prop :=
  (∀ p, (isNaN p = true ∨ fpUnits p < fpUnits 0x3FF0000000000000) → wrapPhase p = p) ∧
  (∀ p, isNaN p = false → fpUnits 0x3FF0000000000000 ≤ fpUnits p → wrapPhase p = fsub p 0x3FF0000000000000) ∧
  wrapPhase 0x3FF0000000000000 = 0x0000000000000000 ∧
  (∀ p, fpUnits 0x3FF0000000000000 ≤ fpUnits p → fpUnits p < fpUnits 0x4000000000000000 →
    fpUnits (wrapPhase p) = fpUnits p - fpUnits 0x3FF0000000000000) ∧
  (∀ p, isFinite p = true → fpUnits 0x4000000000000000 ≤ fpUnits p →
    fpUnits 0x3FF0000000000000 ≤ fpUnits (wrapPhase p)) ∧
  (∀ p, isNaN p = false → fpUnits p < 0 → wrapPhase p = p) ∧
  (∀ p inc, isNaN p = true → isNaN (nextPhase p inc) = true) ∧
  wrapPhase 0x7FF0000000000000 = 0x7FF0000000000000 ∧
  ∀ p inc, phaseInRange p = true → isNaN inc = false →
    (fpUnits 0x4000000000000000 ≤ fpUnits (fadd p inc) → fpUnits 0x3FF0000000000000 ≤ fpUnits inc) ∧
    (fpUnits (fadd p inc) < 0 → fpUnits inc < 0)

/-- 41_render_mix.md R92, which the spec derives: advance and wrap keep a phase in [0,1), and never store -0.0. -/
def Obligations.NextPhaseStaysInTheUnitInterval : Prop :=
  ∀ p inc : F64, phaseInRange p = true → inUnitInterval inc = true → phaseInRange (nextPhase p inc) = true

/-- 41_render_mix.md R93, which the spec derives: with exactly two active voices x < y the frame is the rounded sum of
the two terms. A NaN term is left out of the second clause: its pattern is open (log 5). -/
def Obligations.TwoVoicesSuperpose : Prop :=
  ∀ (s : State) (x y : Slot), x < y → (∀ i, (s.voice i).active = true ↔ i = x ∨ i = y) →
    let term := fun i : Slot =>
      fmul (waveform sinUnit (s.voice i).instrument (s.voice i).phase) (s.voice i).amplitude
    ∃ t f, exec .render s = .next t ∧ t.out = s.out ++ [f] ∧
      f.left = fadd (fadd 0x0000000000000000 (term x)) (term y) ∧ f.right = f.left ∧
      (isNaN (term x) = false → term x ≠ 0x8000000000000000 → f.left = fadd (term x) (term y))

/-- 60_exceptions.md R130 and 70_reset_and_hazards.md R145: with every active voice within VoicesInPremise, which the
premises FreqInRange and AmpFinite keep (PremisesKeepVoicesInRange), the frame RENDER emits is finite and below 2^1005. -/
def Obligations.FramesWithinThePremisesAreFinite : Prop :=
  ∀ s : State, VoicesInPremise s →
    ∃ t f, exec .render s = .next t ∧ t.out = s.out ++ [f] ∧
      isFinite f.left = true ∧ isFinite f.right = true ∧
      fpMag f.left < 2 ^ 1005 * 2 ^ 1074 ∧ fpMag f.right < 2 ^ 1005 * 2 ^ 1074

/-- 70_reset_and_hazards.md R145 (AmpIntended): with amplitudes in [0,1] a frame half has magnitude at most 30.5 (the
rule's 16 x 1.9 = 30.4, and the roundings). -/
def Obligations.IntendedAmplitudesBoundTheFrame : Prop :=
  ∀ s : State, VoicesInPremise s →
    (∀ i, (s.voice i).active = true → amplitudeIntended (s.voice i).amplitude = true) →
    ∃ t f, exec .render s = .next t ∧ t.out = s.out ++ [f] ∧
      fpMag f.left ≤ fpMag 0x403E800000000000 ∧ fpMag f.right ≤ fpMag 0x403E800000000000

/-! ### Invariants -/

/-- 10_state.md R34: from every state that meets it, each command keeps the phase of every active voice with an
increment in [0,1) in [0,1); and a NOTE_ON starts a voice there. -/
def Obligations.EveryCommandKeepsPhasesInRange : Prop :=
  ∀ (i : Instr) (s t : State), PhasesInRange s → exec i s = .next t → PhasesInRange t

/-- Each step keeps the engine's invariant: phases in range (10_state.md R34), increments derived from frequencies
(R26), frames of equal halves (41_render_mix.md R91), and the sink never ahead of OUT (R30). -/
def Obligations.EveryStepKeepsTheEngineInvariant : Prop :=
  ∀ s t : State, EngineInv s → step s = .next t → EngineInv t

/-- The state after reset meets the invariant; so does the state after `rst` at any time (70_reset_and_hazards.md R140).
It rests on no reset value of a data field: every slot is free. -/
def Obligations.ResetMeetsTheEngineInvariant : Prop :=
  EngineInv State.reset ∧ ∀ s : State, EngineInv (assertReset s)

/-- 70_reset_and_hazards.md R145: while the words the host delivers meet FreqInRange and AmpFinite, each step keeps
every active voice within the premises. -/
def Obligations.PremisesKeepVoicesInRange : Prop :=
  ∀ s t : State, VoicesInPremise s → FreqInRange s.pending → AmpFinite s.pending → step s = .next t →
    VoicesInPremise t ∧ FreqInRange t.pending ∧ AmpFinite t.pending

/-- 70_reset_and_hazards.md R145 (FreqInRange), derived there: a frequency above 0 and below 44100 gives an increment in
[0,1). -/
def Obligations.FrequencyInRangeGivesIncrementBelowOne : Prop :=
  ∀ f : F64, frequencyInRange f = true → inUnitInterval (fdivFS f) = true

/-! ### Runs, reset and the ports -/

/-- 20_memory.md R46: stepping through the delivered words gives the fold of Step over the command sequence, with what
the host has still to deliver left as it was. The queue that carries the sequence is the model's own (log 3). -/
def Obligations.SteppingTheQueueIsTheFoldOfStep : Prop :=
  ∀ (words rest : List CmdWord) (s : State), ∃ t,
    runWords words s = .next t ∧
    Host.Core.run Sys2Proof.core words.length { s with pending := words ++ rest } = .next { t with pending := rest }

/-- 20_memory.md R48: the RENDER that follows k RENDERs of a command sequence appends the k-th frame (counting from 0)
to OUT, and that frame stays where it is; each RENDER appends exactly one frame. -/
def Obligations.KthRenderGivesTheKthFrame : Prop :=
  ∀ (before after : List CmdWord) (cw : CmdWord) (s : State), decode cw = .render →
    ∃ t u v f, runWords before s = .next t ∧ stepWord cw t = .next u ∧ u.out = t.out ++ [f] ∧
      runWords (before ++ cw :: after) s = .next v ∧
      v.out[s.out.length + renderCount before]? = some f ∧
      v.out.length = s.out.length + renderCount (before ++ cw :: after)

/-- 70_reset_and_hazards.md R154: from reset, the length of OUT is the number of RENDER commands of the run. -/
def Obligations.OutputLengthIsTheNumberOfRenders : Prop :=
  ∀ words : List CmdWord, ∃ t, runWords words State.reset = .next t ∧ t.out.length = renderCount words

/-- 10_state.md R37: the data fields of a free slot, whether never allocated or released, cannot be observed: two states
that differ in them alone give the same OUT after every command sequence, and still differ in them alone. So no output
rests on the model's reset values of log 1, nor on what a released slot keeps (log 14). -/
def Obligations.DataOfFreeSlotsIsUnobservable : Prop :=
  ∀ (words : List CmdWord) (s s' : State), SameButFreeData s s' →
    ∃ t t', runWords words s = .next t ∧ runWords words s' = .next t' ∧ SameButFreeData t t' ∧
      observe t = observe t'

/-- 70_reset_and_hazards.md R140: after `rst` every slot is free, DI is Piano (the spec's own choice, D17; log 2) and OUT
is empty, whatever came before. The words still to deliver stay with the host (the model's choice, log 9). -/
def Obligations.ResetFreesEverySlotAndEmptiesTheOutput : Prop :=
  ∀ s : State, (∀ i, ((assertReset s).voice i).active = false) ∧ (assertReset s).di = .piano ∧
    (assertReset s).out = [] ∧ (assertReset s).taken = 0 ∧ (assertReset s).pending = s.pending

/-- 30_encoding.md R64 and R66: the sink takes the frames of OUT in order, one at a time, each as the word
{left, right}, and the engine's state is not touched; when every frame has been taken none is offered. The count of
frames taken is the model's (log 4). -/
def Obligations.SinkTakesTheFramesInOrder : Prop :=
  (∀ (s : State) (f : Frame), s.out[s.taken]? = some f →
    frameValid s = true ∧
    ∃ w t, sinkTake s = some (w, t) ∧ w.extractLsb' 64 64 = f.left ∧ w.extractLsb' 0 64 = f.right ∧
      (observe s)[s.taken]? = some w ∧ t.taken = s.taken + 1 ∧ t.out = s.out ∧ t.di = s.di ∧
      t.pending = s.pending ∧ ∀ i, t.voice i = s.voice i) ∧
  ∀ s : State, s.out.length ≤ s.taken → frameValid s = false ∧ sinkTake s = none

/-- 70_reset_and_hazards.md R153 and R145 (SinkDrains), R154: under a sink that accepts every frame offered, whatever the
depth of the output buffer, the engine is ready for a command again after every cycle, the run ends with every word
executed and every frame transferred, and the engine is left as the fold of Step over the words leaves it. -/
def Obligations.EveryRenderCompletesWhileTheSinkDrains : Prop :=
  ∀ (frameReady : Nat → Bool) (s : State), TakenWithin s → SinkDrains frameReady s →
    (∀ n, ∃ m t, n ≤ m ∧ portRun frameReady m s = .next t ∧ cmdReady t = true) ∧
    ∃ n t u, portRun frameReady n s = .next t ∧ RunEnded t ∧ runWords s.pending s = .next u ∧
      t.di = u.di ∧ t.out = u.out ∧ ∀ i, t.voice i = u.voice i

/-- 70_reset_and_hazards.md R153: RENDER alone can wait. Every other command leaves `cmd_ready` as it is; with
`cmd_ready` = 0 and a sink that accepts nothing the engine waits for ever, with its state intact. -/
def Obligations.OnlyRenderWaitsAndTheStateIsIntact : Prop :=
  (∀ (i : Instr) (s t : State), i ≠ .render → exec i s = .next t → cmdReady t = cmdReady s) ∧
  (∀ s t : State, exec .render s = .next t →
    (cmdReady t = true ↔ s.out.length + 1 - s.taken ≤ Config.outputDepth)) ∧
  ∀ s : State, cmdReady s = false → ∀ n, portRun (fun _ => false) n s = .next s

/-- 30_encoding.md R65 and R66: no value depends on the handshakes. After any number of cycles under any sink, the state
is that of the fold of Step over the words accepted so far, but for the frames taken; and the sink is never ahead of
OUT. -/
def Obligations.ThePortsChangeNoValue : Prop :=
  ∀ (frameReady : Nat → Bool) (n : Nat) (s : State), TakenWithin s →
    ∃ k t u, portRun frameReady n s = .next t ∧ runWords (s.pending.take k) s = .next u ∧
      t = (u.setTaken t.taken).setPending (s.pending.drop k) ∧ TakenWithin t

/-! ### The waveform unit -/

/-- 42_waveform.md R95 to R98: the three recipes, with their constants and the order of their roundings, for any sine. -/
def Obligations.WaveformFollowsTheRecipes : Prop :=
  ∀ (sin : F64 → F64) (phase : F64),
    let theta := fmul 0x401921FB54442D18 phase
    waveform sin .piano phase =
      fadd (fadd (sin theta) (fmul 0x3FD3333333333333 (sin (fmul 0x4000000000000000 theta))))
        (fmul 0x3FC999999999999A (sin (fmul 0x4008000000000000 theta))) ∧
    waveform sin .violin phase =
      fadd (fadd (sin (fmul 0x4000000000000000 theta))
          (fmul 0x3FD999999999999A (sin (fmul 0x4010000000000000 theta))))
        (fmul 0x3FD3333333333333 (sin (fmul 0x4018000000000000 theta))) ∧
    waveform sin .trumpet phase =
      fadd (fadd (sin theta) (fmul 0x3FE0000000000000 (sin (fmul 0x4008000000000000 theta))))
        (fmul 0x3FD999999999999A (sin (fmul 0x4014000000000000 theta)))

/-- 42_waveform.md R106, which the spec derives: the waveform at phase +0.0 is +0.0 for every instrument. -/
def Obligations.WaveformAtPhaseZeroIsZero : Prop :=
  ∀ c : Instrument, waveform sinUnit c 0x0000000000000000 = 0x0000000000000000

/-- 42_waveform.md R104, P2 to P5, of the engine's sine, which is a function (P1), whatever that sine is (log 6). -/
def Obligations.SineHasItsNamedProperties : Prop :=
  sinUnit 0x0000000000000000 = 0x0000000000000000 ∧
  (∀ x, isFinite x = true → isFinite (sinUnit x) = true ∧
    fpUnits 0xBFF0000000000000 ≤ fpUnits (sinUnit x) ∧ fpUnits (sinUnit x) ≤ fpUnits 0x3FF0000000000000) ∧
  ((epsSin : ℝ) ≤ 1 / 2 ^ 33 ∧
    ∀ x, isFinite x = true → 0 ≤ fpUnits x → (fpUnits x : ℝ) / 2 ^ 1074 ≤ 38 →
      |(fpUnits (sinUnit x) : ℝ) / 2 ^ 1074 - Real.sin ((fpUnits x : ℝ) / 2 ^ 1074)| ≤ (epsSin : ℝ)) ∧
  ∀ x, isFinite x = false → isNaN (sinUnit x) = true

/-- 42_waveform.md R105, which the spec derives: a waveform value is finite and at most 1.5, 1.7, 1.9 in magnitude. The
phase is bounded by 2^1000, so that no angle overflows (log 19). -/
def Obligations.WaveformIsBoundedByItsWeights : Prop :=
  ∀ phase : F64, isFinite phase = true → fpMag phase ≤ fpMag fpTwoPow1000 →
    (∀ c, isFinite (waveform sinUnit c phase) = true) ∧
    fpMag (waveform sinUnit .piano phase) ≤ fpMag 0x3FF8000000000000 ∧
    fpMag (waveform sinUnit .violin phase) ≤ fpMag 0x3FFB333333333333 ∧
    fpMag (waveform sinUnit .trumpet phase) ≤ fpMag 0x3FFE666666666666

/-- 42_waveform.md R109 (its rule for every admissible sine) and the consequence R104 draws from P4: for every phase in
[0,1), so for every row of the table, the engine's waveform is within 2.3e-10 of the real formula of R97. -/
def Obligations.WaveformIsNearTheRealFormula : Prop :=
  let real : Instrument → ℝ → ℝ := fun c p =>
    let sine := fun k : ℝ => Real.sin (k * (2 * Real.pi * p))
    match c with
    | .piano => sine 1 + 3 / 10 * sine 2 + 2 / 10 * sine 3
    | .violin => sine 2 + 4 / 10 * sine 4 + 3 / 10 * sine 6
    | .trumpet => sine 1 + 5 / 10 * sine 3 + 4 / 10 * sine 5
  ∀ (c : Instrument) (phase : F64), phaseInRange phase = true →
    |(fpUnits (waveform sinUnit c phase) : ℝ) / 2 ^ 1074 - real c ((fpUnits phase : ℝ) / 2 ^ 1074)| ≤ 23 / 10 ^ 11

/-- The worked example of 42_waveform.md R99, for every sine R104 admits and for the engine's own: Waveform(Piano, 0.25)
is within 1e-9 of 0.8. -/
def Obligations.PianoAtQuarterCycleIsNearEightTenths : Prop :=
  (∀ (sin : F64 → F64) (eps : ℝ), SineAdmissible sin eps →
    |(fpUnits (waveform sin .piano 0x3FD0000000000000) : ℝ) / 2 ^ 1074 - 8 / 10| ≤ 1 / 10 ^ 9) ∧
  |(fpUnits (waveform sinUnit .piano 0x3FD0000000000000) : ℝ) / 2 ^ 1074 - 8 / 10| ≤ 1 / 10 ^ 9

/-! ### Arithmetic -/

/-- 43_numerics.md R111: on finite operands each primitive is the exact result rounded to nearest, ties to even, with
overflow to infinity (an infinity counts as 2^1024). -/
def Obligations.ArithmeticRoundsToNearestEven : Prop :=
  ∀ a b : F64, isFinite a = true → isFinite b = true →
    NearestEven (fpUnits a + fpUnits b) 1 (fadd a b) ∧
    NearestEven (fpUnits a - fpUnits b) 1 (fsub a b) ∧
    NearestEven (fpUnits a * fpUnits b) (2 ^ 1074) (fmul a b) ∧
    NearestEven (fpUnits a) 44100 (fdivFS a)

/-- 43_numerics.md R112: the laws of `fadd`. -/
def Obligations.AdditionLaws : Prop :=
  (∀ a b, isFinite a = true → isFinite b = true → NearestEven (fpUnits a + fpUnits b) 1 (fadd a b)) ∧
  (∀ a b, isFinite a = true → isFinite b = true → fpUnits a + fpUnits b = 0 →
    ¬ (a = 0x8000000000000000 ∧ b = 0x8000000000000000) → fadd a b = 0x0000000000000000) ∧
  fadd 0x8000000000000000 0x8000000000000000 = 0x8000000000000000 ∧
  (∀ v, isNaN v = false → v ≠ 0x8000000000000000 → fadd 0x0000000000000000 v = v) ∧
  fadd 0x0000000000000000 0x8000000000000000 = 0x0000000000000000 ∧
  (∀ a b, isInf a = true → isFinite b = true → fadd a b = a ∧ fadd b a = a) ∧
  (∀ a, isInf a = true → fadd a a = a ∧ isNaN (fadd a (fneg a)) = true) ∧
  ∀ a b, (isNaN a = true ∨ isNaN b = true) → isNaN (fadd a b) = true

/-- 43_numerics.md R113: the laws of `fsub`; negation flips bit 63. -/
def Obligations.SubtractionLaws : Prop :=
  (∀ (b : F64) (i : Nat), i < 64 → (fneg b).getLsbD i = if i = 63 then !b.getLsbD i else b.getLsbD i) ∧
  (∀ a b, isNaN b = false → fsub a b = fadd a (fneg b)) ∧
  (∀ a b, (isNaN a = true ∨ isNaN b = true) → isNaN (fsub a b) = true) ∧
  ∀ x, isFinite x = true → fsub x x = 0x0000000000000000

/-- 43_numerics.md R114: the laws of `fmul`. -/
def Obligations.MultiplicationLaws : Prop :=
  (∀ a b, isFinite a = true → isFinite b = true →
    NearestEven (fpUnits a * fpUnits b) (2 ^ 1074) (fmul a b) ∧ fpSign (fmul a b) = (fpSign a ^^ fpSign b)) ∧
  (∀ a b, isFinite a = true → isZero b = true → isZero (fmul a b) = true ∧ isZero (fmul b a) = true) ∧
  (∀ a b, isInf a = true → isNaN b = false → isZero b = false →
    isInf (fmul a b) = true ∧ fpSign (fmul a b) = (fpSign a ^^ fpSign b) ∧
    isInf (fmul b a) = true ∧ fpSign (fmul b a) = (fpSign b ^^ fpSign a)) ∧
  (∀ a b, isInf a = true → isZero b = true → isNaN (fmul a b) = true ∧ isNaN (fmul b a) = true) ∧
  ∀ a b, (isNaN a = true ∨ isNaN b = true) → isNaN (fmul a b) = true

/-- 43_numerics.md R115: the laws of `fdiv(a, FS)`. 22050 units of 2^-1074 are the rule's 1.09e-319. -/
def Obligations.DivisionByTheSampleRateLaws : Prop :=
  (∀ a, isFinite a = true → NearestEven (fpUnits a) 44100 (fdivFS a) ∧ fpSign (fdivFS a) = fpSign a) ∧
  fdivFS 0x0000000000000000 = 0x0000000000000000 ∧ fdivFS 0x8000000000000000 = 0x8000000000000000 ∧
  (∀ a, fpMag a ≤ 22050 → isZero (fdivFS a) = true) ∧
  (∀ a, isInf a = true → fdivFS a = a) ∧
  ∀ a, isNaN a = true → isNaN (fdivFS a) = true

/-- 43_numerics.md R116: the laws of `fge`. -/
def Obligations.GreaterOrEqualLaws : Prop :=
  (∀ a b, isFinite a = true → isFinite b = true → (fge a b = true ↔ fpUnits b ≤ fpUnits a)) ∧
  (∀ a b, isZero a = true → isZero b = true → fge a b = true) ∧
  (∀ b, isNaN b = false → fge 0x7FF0000000000000 b = true) ∧
  (∀ b, fge 0xFFF0000000000000 b = true ↔ b = 0xFFF0000000000000) ∧
  (∀ a, isFinite a = true → fge a 0x7FF0000000000000 = false ∧ fge a 0xFFF0000000000000 = true) ∧
  ∀ a b, (isNaN a = true ∨ isNaN b = true) → fge a b = false

/-- 43_numerics.md R117: value equality is bit equality but for the two zeros, and a NaN equals nothing. -/
def Obligations.EqualityIsBitEqualityButForZeros : Prop :=
  ∀ a b : F64, feq a b = true ↔
    isNaN a = false ∧ isNaN b = false ∧ (a = b ∨ isZero a = true ∧ isZero b = true)

/-- 43_numerics.md R118: a NaN result is some NaN pattern, for every operation and every free value, and every NaN
pattern can be drawn. -/
def Obligations.NanResultsAreUnspecifiedNans : Prop :=
  (∀ op a b, isNaN (nanResult op a b) = true) ∧ ∀ x, isNaN x = true → toNaN x = x

/-- 43_numerics.md R123, which the spec derives: where the primitives are exact. -/
def Obligations.ExactCases : Prop :=
  (∀ p, fpUnits 0x3FF0000000000000 ≤ fpUnits p → fpUnits p < fpUnits 0x4000000000000000 →
    fpUnits (fsub p 0x3FF0000000000000) = fpUnits p - fpUnits 0x3FF0000000000000) ∧
  (∀ x, isFinite (fmul 0x4000000000000000 x) = true →
    fpUnits (fmul 0x4000000000000000 x) = 2 * fpUnits x) ∧
  (∀ x, isFinite (fmul 0x4010000000000000 x) = true →
    fpUnits (fmul 0x4010000000000000 x) = 4 * fpUnits x) ∧
  fdivFS 0x40C5888000000000 = 0x3FD0000000000000 ∧ fdivFS 0x40D5888000000000 = 0x3FE0000000000000 ∧
  fdivFS 0x40B5888000000000 = 0x3FC0000000000000 ∧ fdivFS 0x40E5888000000000 = 0x3FF0000000000000 ∧
  fdivFS 0x407B800000000000 = 0x3F846EFDCB4A6B82 ∧
  ∀ x, isNaN x = false → fpUnits x < fpUnits 0x3FF0000000000000 → fpUnits x ≤ fpUnits 0x3FEFFFFFFFFFFFFF

/-- 43_numerics.md R122: the engine's constants are the patterns nearest to the decimals beside them in the rule. -/
def Obligations.ConstantsAreTheNearestPatterns : Prop :=
  literalBits (.decimal false 441000 1) = fpFS ∧ literalBits (.decimal false 6283185307179586 15) = fpTwoPi ∧
  literalBits (.decimal false 2 1) = fpW02 ∧ literalBits (.decimal false 3 1) = fpW03 ∧
  literalBits (.decimal false 4 1) = fpW04 ∧ literalBits (.decimal false 5 1) = fpW05 ∧
  literalBits (.decimal false 0 1) = fpZero ∧ literalBits (.decimal false 10 1) = fpOne ∧
  ∀ theta : F64, harmonicArg theta .k2 = fmul (literalBits (.decimal false 20 1)) theta ∧
    harmonicArg theta .k3 = fmul (literalBits (.decimal false 30 1)) theta ∧
    harmonicArg theta .k4 = fmul (literalBits (.decimal false 40 1)) theta ∧
    harmonicArg theta .k5 = fmul (literalBits (.decimal false 50 1)) theta ∧
    harmonicArg theta .k6 = fmul (literalBits (.decimal false 60 1)) theta

/-! ### The assembler -/

/-- 30_encoding.md R67 and R68: for every line form, the command words of the table, unused fields zero, and the command
each decodes to; `RENDER n` and `BLOCK` are n and 1024 RENDERs. -/
def Obligations.AssembledLinesDecodeToTheirCommands : Prop :=
  (∀ f a, (assembleLine (.noteOn f a)).map decode = [.noteOn (literalBits f) (literalBits a)] ∧
    (assembleLine (.noteOff f)).map decode = [.noteOff (literalBits f)] ∧
    (assembleLine (.noteOff f)).map cwB = [0]) ∧
  (assembleLine (.instrument .piano) = [0x0300000000000000000000000000000000] ∧
    (assembleLine (.instrument .piano)).map decode = [.setInstrumentPiano]) ∧
  (assembleLine (.instrument .violin) = [0x0300000000000000000000000000000001] ∧
    (assembleLine (.instrument .violin)).map decode = [.setInstrumentViolin]) ∧
  (assembleLine (.instrument .trumpet) = [0x0300000000000000000000000000000002] ∧
    (assembleLine (.instrument .trumpet)).map decode = [.setInstrumentTrumpet]) ∧
  (assembleLine .render = [0x0400000000000000000000000000000000] ∧
    (assembleLine .render).map decode = [.render]) ∧
  (assembleLine .nop = [0x0000000000000000000000000000000000] ∧ (assembleLine .nop).map decode = [.nop]) ∧
  (∀ cw, assembleLine (.word cw) = [cw]) ∧
  (∀ n, assembleLine (.renderMany n) = List.replicate n 0x0400000000000000000000000000000000 ∧
    (assembleLine (.renderMany n)).map decode = List.replicate n .render) ∧
  assembleLine .block = assembleLine (.renderMany 1024)

/-- 30_encoding.md R69: a decimal literal's pattern is the nearest to its value, ties to even; a pattern literal is the
pattern. The value is `digits x 2^1074 / 10^places` units of 2^-1074. That a decimal above the finite range is the
infinity of its sign, and that the sign of a zero is kept, is the model's choice (log 16). -/
def Obligations.LiteralIsTheNearestPattern : Prop :=
  (∀ digits places : Nat,
    NearestEven (digits * 2 ^ 1074) (10 ^ places) (literalBits (.decimal false digits places)) ∧
    NearestEven (-(digits * 2 ^ 1074)) (10 ^ places) (literalBits (.decimal true digits places))) ∧
  ∀ w, literalBits (.pattern w) = w
end

