-- ==== Sys2Proof/Laws/Decode.lean ====
section
/-! SUPPORT. The fields of a word put together from its fields. -/

namespace Sys2Proof

theorem cwOp_mkCmdWord (op : BitVec 8) (a b : F64) : cwOp (mkCmdWord op a b) = op := by
  apply BitVec.eq_of_getLsbD_eq
  intro i hi
  simp only [cwOp, mkCmdWord, BitVec.getLsbD_extractLsb', BitVec.getLsbD_append, hi, decide_true, Bool.true_and]
  rw [if_neg (by omega), show 128 + i - (64 + 64) = i by omega]

theorem cwA_mkCmdWord (op : BitVec 8) (a b : F64) : cwA (mkCmdWord op a b) = a := by
  apply BitVec.eq_of_getLsbD_eq
  intro i hi
  simp only [cwA, mkCmdWord, BitVec.getLsbD_extractLsb', BitVec.getLsbD_append, hi, decide_true, Bool.true_and]
  rw [if_pos (by omega), if_neg (by omega), show 64 + i - 64 = i by omega]

theorem cwB_mkCmdWord (op : BitVec 8) (a b : F64) : cwB (mkCmdWord op a b) = b := by
  apply BitVec.eq_of_getLsbD_eq
  intro i hi
  simp only [cwB, mkCmdWord, BitVec.getLsbD_extractLsb', BitVec.getLsbD_append, hi, decide_true, Bool.true_and]
  rw [if_pos (by omega), if_pos (by omega), Nat.zero_add]

theorem cwCode_mkCmdWord (op : BitVec 8) (a b : F64) : cwCode (mkCmdWord op a b) = b.extractLsb' 0 2 := by
  apply BitVec.eq_of_getLsbD_eq
  intro i hi
  simp only [cwCode, mkCmdWord, BitVec.getLsbD_extractLsb', BitVec.getLsbD_append, hi, decide_true, Bool.true_and]
  rw [if_pos (by omega), if_pos (by omega)]

/-- A word masked on its opcode alone. -/
theorem mkCmdWord_and_op (op m : BitVec 8) (a b : F64) :
    mkCmdWord op a b &&& mkCmdWord m 0 0 = mkCmdWord (op &&& m) 0 0 := by
  apply BitVec.eq_of_getLsbD_eq
  intro i hi
  simp only [mkCmdWord, BitVec.getLsbD_and, BitVec.getLsbD_append]
  split
  · split <;> simp
  · rfl

end Sys2Proof
end

