-- ==== Sys2Proof/Laws/State.lean ====
section
/-! SUPPORT. One lemma per field per update of the state. -/

namespace Sys2Proof.Machine

/-- Two states with the same voices and the same other fields are equal. -/
theorem State.ext_voice {s t : State} (hv : ∀ i, s.voice i = t.voice i) (hd : s.di = t.di) (ho : s.out = t.out)
    (ht : s.taken = t.taken) (hp : s.pending = t.pending) : s = t := by
  obtain ⟨sv, _, _, _, _⟩ := s
  obtain ⟨tv, _, _, _, _⟩ := t
  simp only [State.mk.injEq] at *
  exact ⟨Vector.ext fun i h => hv ⟨i, h⟩, hd, ho, ht, hp⟩

/-! ### `setVoice` -/

@[simp] theorem State.voice_setVoice_same (s : State) (i : Slot) (v : Voice) : (s.setVoice i v).voice i = v := by
  simp [State.voice, State.setVoice]

@[simp] theorem State.voice_setVoice_ne (s : State) {i j : Slot} (v : Voice) (h : j ≠ i) :
    (s.setVoice i v).voice j = s.voice j := by
  simp only [State.voice, State.setVoice, Fin.getElem_fin]
  exact Vector.getElem_set_ne _ _ (by simpa [Fin.ext_iff, eq_comm] using h)

@[simp] theorem State.di_setVoice (s : State) (i : Slot) (v : Voice) : (s.setVoice i v).di = s.di := rfl
@[simp] theorem State.out_setVoice (s : State) (i : Slot) (v : Voice) : (s.setVoice i v).out = s.out := rfl
@[simp] theorem State.taken_setVoice (s : State) (i : Slot) (v : Voice) : (s.setVoice i v).taken = s.taken := rfl
@[simp] theorem State.pending_setVoice (s : State) (i : Slot) (v : Voice) : (s.setVoice i v).pending = s.pending := rfl

/-! ### `setPending` -/

@[simp] theorem State.voice_setPending (s : State) (p : List CmdWord) (i : Slot) :
    (s.setPending p).voice i = s.voice i := rfl
@[simp] theorem State.di_setPending (s : State) (p : List CmdWord) : (s.setPending p).di = s.di := rfl
@[simp] theorem State.out_setPending (s : State) (p : List CmdWord) : (s.setPending p).out = s.out := rfl
@[simp] theorem State.taken_setPending (s : State) (p : List CmdWord) : (s.setPending p).taken = s.taken := rfl
@[simp] theorem State.pending_setPending (s : State) (p : List CmdWord) : (s.setPending p).pending = p := rfl
@[simp] theorem State.setPending_setPending (s : State) (p q : List CmdWord) :
    (s.setPending p).setPending q = s.setPending q := rfl

/-! ### `setTaken` -/

@[simp] theorem State.voice_setTaken (s : State) (n : Nat) (i : Slot) : (s.setTaken n).voice i = s.voice i := rfl
@[simp] theorem State.di_setTaken (s : State) (n : Nat) : (s.setTaken n).di = s.di := rfl
@[simp] theorem State.out_setTaken (s : State) (n : Nat) : (s.setTaken n).out = s.out := rfl
@[simp] theorem State.taken_setTaken (s : State) (n : Nat) : (s.setTaken n).taken = n := rfl
@[simp] theorem State.pending_setTaken (s : State) (n : Nat) : (s.setTaken n).pending = s.pending := rfl

/-! ### `setDefaultInstrument` -/

@[simp] theorem voice_setDefaultInstrument (k : Instrument) (s : State) (i : Slot) :
    (setDefaultInstrument k s).voice i = s.voice i := rfl
@[simp] theorem di_setDefaultInstrument (k : Instrument) (s : State) : (setDefaultInstrument k s).di = k := rfl
@[simp] theorem out_setDefaultInstrument (k : Instrument) (s : State) : (setDefaultInstrument k s).out = s.out := rfl
@[simp] theorem taken_setDefaultInstrument (k : Instrument) (s : State) :
    (setDefaultInstrument k s).taken = s.taken := rfl
@[simp] theorem pending_setDefaultInstrument (k : Instrument) (s : State) :
    (setDefaultInstrument k s).pending = s.pending := rfl

/-! ### `emit` -/

@[simp] theorem voice_emit (f : Frame) (s : State) (i : Slot) : (emit f s).voice i = s.voice i := rfl
@[simp] theorem di_emit (f : Frame) (s : State) : (emit f s).di = s.di := rfl
@[simp] theorem out_emit (f : Frame) (s : State) : (emit f s).out = s.out ++ [f] := rfl
@[simp] theorem taken_emit (f : Frame) (s : State) : (emit f s).taken = s.taken := rfl
@[simp] theorem pending_emit (f : Frame) (s : State) : (emit f s).pending = s.pending := rfl

/-! ### `State.reset` -/

@[simp] theorem State.voice_reset (i : Slot) : State.reset.voice i = Voice.reset := by
  simp [State.voice, State.reset]
@[simp] theorem State.di_reset : State.reset.di = .piano := rfl
@[simp] theorem State.out_reset : State.reset.out = [] := rfl
@[simp] theorem State.taken_reset : State.reset.taken = 0 := rfl
@[simp] theorem State.pending_reset : State.reset.pending = [] := rfl

end Sys2Proof.Machine
end

