-- ==== Sys2Proof/Laws/Voices.lean ====
section
/-! SUPPORT. What the priority scans and the pool operations can answer. -/

namespace Sys2Proof.Machine

/-- The fixed list of slots holds every slot. -/
theorem mem_slots (i : Slot) : i ∈ slots := by
  revert i
  decide

theorem slots_nodup : slots.Nodup := by decide

/-- A slot stands in the list of slots at its own index. -/
theorem getElem_slots (k : Nat) (h : k < slots.length) : slots[k] = ⟨k, h⟩ := by
  have h16 : k < 16 := h
  interval_cases k <;> rfl

/-- A scan of the slots finds the lowest one that satisfies the test. -/
theorem find_slots_eq_some (p : Slot → Bool) (i : Slot) :
    slots.find? p = some i ↔ p i = true ∧ ∀ j < i, p j = false := by
  rw [List.find?_eq_some_iff_getElem]
  constructor
  · rintro ⟨hp, k, hk, hki, hlt⟩
    rw [getElem_slots k hk] at hki
    subst hki
    refine ⟨hp, fun j hj => ?_⟩
    have := hlt j.val hj
    rw [getElem_slots] at this
    simpa using this
  · rintro ⟨hp, hlt⟩
    refine ⟨hp, i.val, i.isLt, getElem_slots i.val i.isLt, fun j hj => ?_⟩
    rw [getElem_slots]
    simpa using hlt ⟨j, Nat.lt_trans hj i.isLt⟩ hj

/-- `FirstFree` answers the lowest free slot (40_voice_control.md R72). -/
theorem firstFree_eq_some (s : State) (i : Slot) :
    firstFree s = some i ↔ (s.voice i).active = false ∧ ∀ j < i, (s.voice j).active = true := by
  simp [firstFree, find_slots_eq_some]

/-- `FirstFree` answers none when every slot is active (40_voice_control.md R72). -/
theorem firstFree_eq_none (s : State) : firstFree s = none ↔ ∀ i, (s.voice i).active = true := by
  simp [firstFree, mem_slots]

/-- `FirstMatch` answers the lowest active slot of an equal frequency (40_voice_control.md R75). -/
theorem firstMatch_eq_some (s : State) (f : F64) (i : Slot) :
    firstMatch s f = some i ↔ ((s.voice i).active = true ∧ feq (s.voice i).frequency f = true) ∧
      ∀ j < i, (s.voice j).active = true → feq (s.voice j).frequency f = false := by
  simp [firstMatch, find_slots_eq_some]

/-- `FirstMatch` answers none when no active slot has an equal frequency (40_voice_control.md R75). -/
theorem firstMatch_eq_none (s : State) (f : F64) :
    firstMatch s f = none ↔ ∀ i, (s.voice i).active = true → feq (s.voice i).frequency f = false := by
  simp [firstMatch, mem_slots]

/-- All `allocate` can do. -/
theorem allocate_cases (f a : F64) (s : State) :
    (firstFree s = none ∧ allocate f a s = (.dropped, s)) ∨
    ∃ i, firstFree s = some i ∧ allocate f a s = (.success i, s.setVoice i (newVoice f a s.di)) := by
  unfold allocate
  cases h : firstFree s with
  | none => exact .inl ⟨rfl, rfl⟩
  | some i => exact .inr ⟨i, rfl, rfl⟩

/-- All `release` can do. -/
theorem release_cases (f : F64) (s : State) :
    (firstMatch s f = none ∧ release f s = (.notFound, s)) ∨
    ∃ i, firstMatch s f = some i ∧
      release f s = (.success i, s.setVoice i { s.voice i with active := false }) := by
  unfold release
  cases h : firstMatch s f with
  | none => exact .inl ⟨rfl, rfl⟩
  | some i => exact .inr ⟨i, rfl, rfl⟩

end Sys2Proof.Machine
end

