-- ==== Sys2Proof/Laws/Render.lean ====
section
/-! SUPPORT. What RENDER's loop does: each lane on its own slot, the accumulators in slot order. -/

namespace Sys2Proof.Machine

/-- The voice a RENDER leaves in a slot. -/
def advanceVoice (v : Voice) : Voice :=
  if v.active then { v with phase := nextPhase v.phase v.increment } else v

/-- The accumulators after a slot that holds the voice. -/
def mixVoice (sin : F64 → F64) (f : Frame) (v : Voice) : Frame :=
  if v.active then { left := fadd f.left (voiceTerm sin v), right := fadd f.right (voiceTerm sin v) } else f

variable (sin : F64 → F64)

theorem renderSlot_of_active (acc : Frame × State) (i : Slot) (h : (acc.2.voice i).active = true) :
    renderSlot sin acc i = (mixVoice sin acc.1 (acc.2.voice i), acc.2.setVoice i (advanceVoice (acc.2.voice i))) := by
  simp [renderSlot, mixVoice, advanceVoice, h]

/-- A free slot is skipped (41_render_mix.md R82). -/
theorem renderSlot_of_free (acc : Frame × State) (i : Slot) (h : (acc.2.voice i).active = false) :
    renderSlot sin acc i = acc := by
  simp [renderSlot, h]

theorem mixVoice_of_free (f : Frame) (v : Voice) (h : v.active = false) : mixVoice sin f v = f := by
  simp [mixVoice, h]

theorem advanceVoice_of_free (v : Voice) (h : v.active = false) : advanceVoice v = v := by
  simp [advanceVoice, h]

theorem renderSlot_frame (acc : Frame × State) (i : Slot) :
    (renderSlot sin acc i).1 = mixVoice sin acc.1 (acc.2.voice i) := by
  cases h : (acc.2.voice i).active
  · rw [renderSlot_of_free sin acc i h, mixVoice_of_free sin _ _ h]
  · rw [renderSlot_of_active sin acc i h]

theorem renderSlot_voice (acc : Frame × State) (i j : Slot) :
    (renderSlot sin acc i).2.voice j = if j = i then advanceVoice (acc.2.voice i) else acc.2.voice j := by
  cases h : (acc.2.voice i).active
  · rw [renderSlot_of_free sin acc i h, advanceVoice_of_free _ h]
    split <;> simp_all
  · rw [renderSlot_of_active sin acc i h]
    split <;> simp_all

theorem renderSlot_rest (acc : Frame × State) (i : Slot) :
    (renderSlot sin acc i).2.di = acc.2.di ∧ (renderSlot sin acc i).2.out = acc.2.out ∧
    (renderSlot sin acc i).2.taken = acc.2.taken ∧ (renderSlot sin acc i).2.pending = acc.2.pending := by
  cases h : (acc.2.voice i).active
  · rw [renderSlot_of_free sin acc i h]; simp
  · rw [renderSlot_of_active sin acc i h]; simp

theorem foldl_renderSlot_rest (l : List Slot) (acc : Frame × State) :
    (l.foldl (renderSlot sin) acc).2.di = acc.2.di ∧ (l.foldl (renderSlot sin) acc).2.out = acc.2.out ∧
    (l.foldl (renderSlot sin) acc).2.taken = acc.2.taken ∧
    (l.foldl (renderSlot sin) acc).2.pending = acc.2.pending := by
  induction l generalizing acc with
  | nil => simp
  | cons i l ih =>
    obtain ⟨h1, h2, h3, h4⟩ := renderSlot_rest sin acc i
    obtain ⟨g1, g2, g3, g4⟩ := ih (renderSlot sin acc i)
    exact ⟨g1.trans h1, g2.trans h2, g3.trans h3, g4.trans h4⟩

theorem foldl_renderSlot_voice (l : List Slot) (hl : l.Nodup) (acc : Frame × State) (j : Slot) :
    (l.foldl (renderSlot sin) acc).2.voice j = if j ∈ l then advanceVoice (acc.2.voice j) else acc.2.voice j := by
  induction l generalizing acc with
  | nil => simp
  | cons i l ih =>
    obtain ⟨hil, hl⟩ := List.nodup_cons.mp hl
    rw [List.foldl_cons, ih hl, renderSlot_voice]
    by_cases hji : j = i
    · subst hji
      simp [hil]
    · simp [hji]

theorem foldl_renderSlot_frame (l : List Slot) (hl : l.Nodup) (acc : Frame × State) :
    (l.foldl (renderSlot sin) acc).1 = l.foldl (fun f i => mixVoice sin f (acc.2.voice i)) acc.1 := by
  induction l generalizing acc with
  | nil => rfl
  | cons i l ih =>
    obtain ⟨hil, hl⟩ := List.nodup_cons.mp hl
    rw [List.foldl_cons, ih hl, List.foldl_cons, renderSlot_frame]
    apply List.foldl_ext
    intro f j hj
    rw [renderSlot_voice, if_neg]
    rintro rfl
    exact hil hj

/-- Each slot's voice after `renderFrame` depends on that slot alone. -/
theorem renderFrame_voice (s : State) (j : Slot) :
    (renderFrame sin s).voice j = advanceVoice (s.voice j) := by
  rw [renderFrame, voice_emit, foldl_renderSlot_voice sin slots slots_nodup]
  simp [mem_slots]

/-- The one frame `renderFrame` appends: the voices of the state before it, mixed in slot order. -/
theorem renderFrame_out (s : State) :
    (renderFrame sin s).out = s.out ++
      [slots.foldl (fun f i => mixVoice sin f (s.voice i)) { left := fpZero, right := fpZero }] := by
  rw [renderFrame, out_emit, foldl_renderSlot_frame sin slots slots_nodup, (foldl_renderSlot_rest sin slots _).2.1]

@[simp] theorem renderFrame_di (s : State) : (renderFrame sin s).di = s.di := by
  rw [renderFrame, di_emit, (foldl_renderSlot_rest sin slots _).1]

@[simp] theorem renderFrame_taken (s : State) : (renderFrame sin s).taken = s.taken := by
  rw [renderFrame, taken_emit, (foldl_renderSlot_rest sin slots _).2.2.1]

@[simp] theorem renderFrame_pending (s : State) : (renderFrame sin s).pending = s.pending := by
  rw [renderFrame, pending_emit, (foldl_renderSlot_rest sin slots _).2.2.2]

/-- The two accumulators are equal wherever they start equal. -/
theorem foldl_mixVoice_mono (l : List Slot) (v : Slot → Voice) (f : Frame) (h : f.left = f.right) :
    (l.foldl (fun f i => mixVoice sin f (v i)) f).left = (l.foldl (fun f i => mixVoice sin f (v i)) f).right := by
  induction l generalizing f with
  | nil => exact h
  | cons i l ih =>
    apply ih
    cases hv : (v i).active <;> simp [mixVoice, hv, h]

end Sys2Proof.Machine
end

