-- ==== Sys2Proof/Laws/Exec.lean ====
section
/-! SUPPORT. What one instruction, and one step, can do. -/

namespace Sys2Proof.Machine

/-- All an instruction can do. -/
theorem exec_cases {i : Instr} {s t : State} (h : exec i s = .next t) :
    (i.isNop = true ∧ t = s) ∨
    (∃ f a, i = .noteOn f a ∧ t = (allocate f a s).2) ∨
    (∃ f, i = .noteOff f ∧ t = (release f s).2) ∨
    (∃ k, (i = .setInstrumentPiano ∧ k = .piano ∨ i = .setInstrumentViolin ∧ k = .violin ∨
      i = .setInstrumentTrumpet ∧ k = .trumpet) ∧ t = setDefaultInstrument k s) ∨
    (i = .render ∧ t = renderFrame sinUnit s) := by
  cases i with
  | nop => exact .inl ⟨rfl, (Host.Outcome.next.inj h).symm⟩
  | noteOn f a => exact .inr (.inl ⟨f, a, rfl, (Host.Outcome.next.inj h).symm⟩)
  | noteOff f => exact .inr (.inr (.inl ⟨f, rfl, (Host.Outcome.next.inj h).symm⟩))
  | setInstrumentPiano =>
    exact .inr (.inr (.inr (.inl ⟨.piano, .inl ⟨rfl, rfl⟩, (Host.Outcome.next.inj h).symm⟩)))
  | setInstrumentViolin =>
    exact .inr (.inr (.inr (.inl ⟨.violin, .inr (.inl ⟨rfl, rfl⟩), (Host.Outcome.next.inj h).symm⟩)))
  | setInstrumentTrumpet =>
    exact .inr (.inr (.inr (.inl ⟨.trumpet, .inr (.inr ⟨rfl, rfl⟩), (Host.Outcome.next.inj h).symm⟩)))
  | nopMalformedSetInstrument => exact .inl ⟨rfl, (Host.Outcome.next.inj h).symm⟩
  | render => exact .inr (.inr (.inr (.inr ⟨rfl, (Host.Outcome.next.inj h).symm⟩)))
  | nopReserved05 => exact .inl ⟨rfl, (Host.Outcome.next.inj h).symm⟩
  | nopReserved06 op => exact .inl ⟨rfl, (Host.Outcome.next.inj h).symm⟩
  | nopReserved08 op => exact .inl ⟨rfl, (Host.Outcome.next.inj h).symm⟩
  | nopReserved10 op => exact .inl ⟨rfl, (Host.Outcome.next.inj h).symm⟩
  | nopReserved20 op => exact .inl ⟨rfl, (Host.Outcome.next.inj h).symm⟩
  | nopReserved40 op => exact .inl ⟨rfl, (Host.Outcome.next.inj h).symm⟩
  | nopReserved80 op => exact .inl ⟨rfl, (Host.Outcome.next.inj h).symm⟩

theorem exec_of_isNop {i : Instr} (h : i.isNop = true) (s : State) : exec i s = .next s := by
  cases i <;> first | exact absurd h Bool.false_ne_true | rfl

/-- All a step can do: idle with no word to execute, or execute the next word and drop it from the queue. -/
theorem step_cases {s t : State} (h : step s = .next t) :
    (s.pending = [] ∧ t = s) ∨
    ∃ cw rest, s.pending = cw :: rest ∧ exec (decode cw) (s.setPending rest) = .next t := by
  unfold step at h
  split at h
  · exact .inl ⟨‹_›, (Host.Outcome.next.inj h).symm⟩
  · exact .inr ⟨_, _, ‹_›, h⟩

/-! ### No instruction reads or writes what the host and the sink hold -/

theorem allocate_ports (f a : F64) (s : State) (n : Nat) (p : List CmdWord) :
    (allocate f a ((s.setTaken n).setPending p)).2 = ((allocate f a s).2.setTaken n).setPending p := by
  have hscan : firstFree ((s.setTaken n).setPending p) = firstFree s := rfl
  rcases allocate_cases f a s with ⟨h, he⟩ | ⟨i, h, he⟩
  · rw [he, allocate, hscan, h]
  · rw [he, allocate, hscan, h]
    rfl

theorem release_ports (f : F64) (s : State) (n : Nat) (p : List CmdWord) :
    (release f ((s.setTaken n).setPending p)).2 = ((release f s).2.setTaken n).setPending p := by
  have hscan : firstMatch ((s.setTaken n).setPending p) f = firstMatch s f := rfl
  rcases release_cases f s with ⟨h, he⟩ | ⟨i, h, he⟩
  · rw [he, release, hscan, h]
  · rw [he, release, hscan, h]
    rfl

theorem renderFrame_ports (sin : F64 → F64) (s : State) (n : Nat) (p : List CmdWord) :
    renderFrame sin ((s.setTaken n).setPending p) = ((renderFrame sin s).setTaken n).setPending p := by
  apply State.ext_voice <;> simp [renderFrame_voice, renderFrame_out]

/-- An instruction does the same whatever the sink has taken and the host has still to deliver, and changes neither
(10_state.md R30, R31). -/
theorem exec_ports {i : Instr} {s t : State} (h : exec i s = .next t) (n : Nat) (p : List CmdWord) :
    exec i ((s.setTaken n).setPending p) = .next ((t.setTaken n).setPending p) := by
  rcases exec_cases h with ⟨hi, rfl⟩ | ⟨f, a, rfl, rfl⟩ | ⟨f, rfl, rfl⟩ | ⟨k, hi, rfl⟩ | ⟨rfl, rfl⟩
  · exact exec_of_isNop hi _
  · exact congrArg Host.Outcome.next (allocate_ports f a s n p)
  · exact congrArg Host.Outcome.next (release_ports f s n p)
  · rcases hi with ⟨rfl, rfl⟩ | ⟨rfl, rfl⟩ | ⟨rfl, rfl⟩ <;> rfl
  · exact congrArg Host.Outcome.next (renderFrame_ports sinUnit s n p)

/-- An instruction leaves the pending words alone (10_state.md R31). -/
theorem exec_pending {i : Instr} {s t : State} (h : exec i s = .next t) : t.pending = s.pending := by
  rcases exec_cases h with ⟨-, rfl⟩ | ⟨f, a, -, rfl⟩ | ⟨f, -, rfl⟩ | ⟨k, -, rfl⟩ | ⟨-, rfl⟩
  · rfl
  · rcases allocate_cases f a s with ⟨-, he⟩ | ⟨j, -, he⟩ <;> simp [he]
  · rcases release_cases f s with ⟨-, he⟩ | ⟨j, -, he⟩ <;> simp [he]
  · simp
  · simp

/-- An instruction leaves the sink's count alone (10_state.md R30). -/
theorem exec_taken {i : Instr} {s t : State} (h : exec i s = .next t) : t.taken = s.taken := by
  rcases exec_cases h with ⟨-, rfl⟩ | ⟨f, a, -, rfl⟩ | ⟨f, -, rfl⟩ | ⟨k, -, rfl⟩ | ⟨-, rfl⟩
  · rfl
  · rcases allocate_cases f a s with ⟨-, he⟩ | ⟨j, -, he⟩ <;> simp [he]
  · rcases release_cases f s with ⟨-, he⟩ | ⟨j, -, he⟩ <;> simp [he]
  · simp
  · simp

end Sys2Proof.Machine
end

