-- ==== Sys2Proof/Laws/Nearest.lean ====
section
/-! SUPPORT. A packed rounding is the nearest F64, even on a tie. -/

namespace Sys2Proof.Machine

theorem getLsbD_zero_pack (s : Bool) (low : Nat) :
    (fpPack s low).getLsbD 0 = decide (low % 2 = 1) := by
  rw [fpPack, BitVec.getLsbD_ofNat, Nat.testBit_zero]
  cases s
  · simp
  · simp
    omega

/-- A sign and a magnitude rounded are the signed value rounded (43_numerics.md R111). -/
theorem nearestEven_round (s : Bool) (num den : Nat) (hd : 0 < den) :
    NearestEven (if s = true then -(num : Int) else (num : Int)) den (fpPack s (roundMag num den)) := by
  refine ⟨isNaN_round s num den, fun c hc => ?_⟩
  have hlow := (not_isNaN_iff c).mp hc
  have hsame := roundMag_nearest num den (fpLow c) hd hlow
  have hzero := roundMag_nearest num den 0 hd (Nat.zero_le _)
  have hinj : lowMag (fpLow c) = 0 → fpLow c = 0 :=
    fun h => lowMag_strictMono.injective (h.trans lowMag_zero.symm)
  have hpos : 0 < lowMag (fpLow c) → 0 < den * lowMag (fpLow c) := fun h => Nat.mul_pos hd h
  rw [fpUnits_pack s (roundMag_lt num den), getLsbD_zero_pack s (roundMag num den)]
  have hsimp : ∀ k : Nat, k = roundMag num den → lowMag k = lowMag (roundMag num den) := fun k hk => by rw [hk]
  have h1 := hsimp (fpLow c)
  have h2 := hsimp 0
  unfold fpUnits
  rw [fpMag_eq]
  rw [lowMag_zero] at hzero h2
  simp only [Int.abs_eq_natAbs, Nat.cast_le, Nat.cast_inj, ← Nat.cast_mul, decide_eq_false_iff_not] at hsame hzero ⊢
  cases s <;> cases hs : fpSign c <;>
    simp only [Bool.false_eq_true, if_false, if_true, mul_neg, ← Nat.cast_mul] at hsame hzero ⊢ <;>
    generalize den * lowMag (roundMag num den) = R at * <;>
    generalize hC : den * lowMag (fpLow c) = C at * <;>
    generalize lowMag (fpLow c) = LC at * <;>
    generalize lowMag (roundMag num den) = LR at * <;>
    simp only [mul_zero] at hzero <;>
    omega

end Sys2Proof.Machine
end

