-- ==== Sys2Proof/Laws/PerInstr.lean ====
section
/-! SUPPORT. Family EncodedRow: the word of a well-formed instruction selects that instruction's row of
spec/opcode_table.json. -/

namespace Sys2Proof.Laws.EncodedRow

/-- The encoded word lies in the row the constructor stands for (30_encoding.md R53, R54). -/
def Statement (i : Instr) : Prop :=
  i.wellFormed = true → ∃ r, opcodeTable[i.row]? = some r ∧ r.selects (encode i) = true

/-- A word lies in a row that fixes opcode bits alone if its opcode does. -/
theorem selects_of_op (op m k : BitVec 8) (a b : F64) (name : String) (h : op &&& m = k) :
    (OpRow.mk (mkCmdWord k 0 0) (mkCmdWord m 0 0) name).selects (mkCmdWord op a b) = true := by
  simp only [OpRow.selects, mkCmdWord_and_op, h, beq_self_eq_true]

theorem nop : Statement .nop := fun _ => ⟨_, rfl, selects_of_op 0x00 0xFF 0x00 0 0 _ (by decide)⟩
theorem noteOn (f a : F64) : Statement (.noteOn f a) :=
  fun _ => ⟨_, rfl, selects_of_op 0x01 0xFF 0x01 f a _ (by decide)⟩
theorem noteOff (f : F64) : Statement (.noteOff f) :=
  fun _ => ⟨_, rfl, selects_of_op 0x02 0xFF 0x02 f 0 _ (by decide)⟩
theorem setInstrumentPiano : Statement .setInstrumentPiano := fun _ => ⟨_, rfl, by decide⟩
theorem setInstrumentViolin : Statement .setInstrumentViolin := fun _ => ⟨_, rfl, by decide⟩
theorem setInstrumentTrumpet : Statement .setInstrumentTrumpet := fun _ => ⟨_, rfl, by decide⟩
theorem nopMalformedSetInstrument : Statement .nopMalformedSetInstrument := fun _ => ⟨_, rfl, by decide⟩
theorem render : Statement .render := fun _ => ⟨_, rfl, selects_of_op 0x04 0xFF 0x04 0 0 _ (by decide)⟩
theorem nopReserved05 : Statement .nopReserved05 := fun _ => ⟨_, rfl, selects_of_op 0x05 0xFF 0x05 0 0 _ (by decide)⟩

theorem nopReserved06 (op : BitVec 8) : Statement (.nopReserved06 op) := by
  intro h
  refine ⟨_, rfl, selects_of_op op 0xFE 0x06 0 0 _ ?_⟩
  revert op
  decide

theorem nopReserved08 (op : BitVec 8) : Statement (.nopReserved08 op) := by
  intro h
  refine ⟨_, rfl, selects_of_op op 0xF8 0x08 0 0 _ ?_⟩
  revert op
  decide

theorem nopReserved10 (op : BitVec 8) : Statement (.nopReserved10 op) := by
  intro h
  refine ⟨_, rfl, selects_of_op op 0xF0 0x10 0 0 _ ?_⟩
  revert op
  decide

theorem nopReserved20 (op : BitVec 8) : Statement (.nopReserved20 op) := by
  intro h
  refine ⟨_, rfl, selects_of_op op 0xE0 0x20 0 0 _ ?_⟩
  revert op
  decide

theorem nopReserved40 (op : BitVec 8) : Statement (.nopReserved40 op) := by
  intro h
  refine ⟨_, rfl, selects_of_op op 0xC0 0x40 0 0 _ ?_⟩
  revert op
  decide

theorem nopReserved80 (op : BitVec 8) : Statement (.nopReserved80 op) := by
  intro h
  refine ⟨_, rfl, selects_of_op op 0x80 0x80 0 0 _ ?_⟩
  revert op
  decide

end Sys2Proof.Laws.EncodedRow
end

