-- ==== Sys2Proof/Laws/Ports.lean ====
section
/-! SUPPORT. What one cycle of the ports can do. -/

namespace Sys2Proof.Machine

/-- All `sinkAccept` can do: the count of frames taken rises by one, if there is a frame and the sink is ready. -/
theorem sinkAccept_eq (r : Bool) (s : State) :
    sinkAccept r s = s.setTaken (if r = true ∧ s.taken < s.out.length then s.taken + 1 else s.taken) := by
  cases r
  · simp [sinkAccept, State.setTaken]
  · by_cases h : s.taken < s.out.length <;> simp [sinkAccept, sinkTake, h, State.setTaken]

@[simp] theorem voice_sinkAccept (r : Bool) (s : State) (i : Slot) : (sinkAccept r s).voice i = s.voice i := by
  rw [sinkAccept_eq]; simp
@[simp] theorem di_sinkAccept (r : Bool) (s : State) : (sinkAccept r s).di = s.di := by simp [sinkAccept_eq]
@[simp] theorem out_sinkAccept (r : Bool) (s : State) : (sinkAccept r s).out = s.out := by simp [sinkAccept_eq]
@[simp] theorem pending_sinkAccept (r : Bool) (s : State) : (sinkAccept r s).pending = s.pending := by
  simp [sinkAccept_eq]
theorem taken_sinkAccept (r : Bool) (s : State) :
    (sinkAccept r s).taken = if r = true ∧ s.taken < s.out.length then s.taken + 1 else s.taken := by
  rw [sinkAccept_eq, State.taken_setTaken]

/-- Every cycle has a next state: the sink's side alone, or that and one step. -/
theorem portCycle_cases (r : Bool) (s : State) :
    (cmdReady (sinkAccept r s) = false ∧ portCycle r s = .next (sinkAccept r s)) ∨
    (cmdReady (sinkAccept r s) = true ∧ portCycle r s = step (sinkAccept r s)) := by
  unfold portCycle
  cases h : cmdReady (sinkAccept r s) <;> simp

end Sys2Proof.Machine
end

