-- ==== Sys2Proof/Laws/Waveform.lean ====
section
/-! SUPPORT. All that is known of the engine's sine (42_waveform.md R104). -/

namespace Sys2Proof.Machine

/-- The engine's sine has the properties of R104, with its own `EPS_SIN`. -/
theorem sinUnit_admissible : SineAdmissible sinUnit (epsSin : ℝ) := Config.sine.val.2

@[simp] theorem sinUnit_zero : sinUnit fpZero = fpZero := sinUnit_admissible.zero

theorem sinUnit_finite {x : F64} (h : isFinite x = true) :
    isFinite (sinUnit x) = true ∧ fpMag (sinUnit x) ≤ fpMag fpOne := sinUnit_admissible.range x h

end Sys2Proof.Machine
end

