-- ==== Sys2Proof/Tests/Slice0.lean ====
section
/-! SUPPORT. The model's own tests: expected values are the vectors of 95_test_vectors.md (T1 to T8, S4, P1 to P6), none
from a run of the model; and for each statement with hypotheses a witness that meets them. -/

namespace Sys2Proof.Tests

open Sys2Proof Sys2Proof.Machine

/-! ### WellFormed: an ill-formed term for each check -/

theorem test_wf_refuses_reserved06 : Instr.wellFormed (.nopReserved06 0x05) = false ∧
    Instr.wellFormed (.nopReserved06 0x08) = false := by decide
theorem test_wf_refuses_reserved08 : Instr.wellFormed (.nopReserved08 0x07) = false ∧
    Instr.wellFormed (.nopReserved08 0x10) = false := by decide
theorem test_wf_refuses_reserved10 : Instr.wellFormed (.nopReserved10 0x0F) = false ∧
    Instr.wellFormed (.nopReserved10 0x20) = false := by decide
theorem test_wf_refuses_reserved20 : Instr.wellFormed (.nopReserved20 0x1F) = false ∧
    Instr.wellFormed (.nopReserved20 0x40) = false := by decide
theorem test_wf_refuses_reserved40 : Instr.wellFormed (.nopReserved40 0x3F) = false ∧
    Instr.wellFormed (.nopReserved40 0x80) = false := by decide
theorem test_wf_refuses_reserved80 : Instr.wellFormed (.nopReserved80 0x7F) = false := by decide

/-! ### Decode: one word for each constructor, written out from 30_encoding.md R54 (T1.1 to T1.15) -/

theorem test_decode_nop : decode 0x0000000000000000000000000000000000 = .nop := by decide
theorem test_decode_noteOn :
    decode 0x01407B8000000000003FE0000000000000 = .noteOn 0x407B800000000000 0x3FE0000000000000 := by decide
theorem test_decode_noteOff : decode 0x02407B8000000000000000000000000000 = .noteOff 0x407B800000000000 := by decide
theorem test_decode_piano : decode 0x0300000000000000000000000000000000 = .setInstrumentPiano := by decide
theorem test_decode_violin : decode 0x03FFFFFFFFFFFFFFFFFFFFFFFFFFFFFFFD = .setInstrumentViolin := by decide
theorem test_decode_trumpet : decode 0x0300000000000000000000000000000002 = .setInstrumentTrumpet := by decide
theorem test_decode_malformed : decode 0x0300000000000000000000000000000007 = .nopMalformedSetInstrument := by decide
theorem test_decode_render : decode 0x04DEADBEEFDEADBEEF0123456789ABCDEF = .render := by decide
theorem test_decode_reserved05 : decode 0x0500000000000000000000000000000000 = .nopReserved05 := by decide
theorem test_decode_reserved06 : decode 0x0700000000000000000000000000000000 = .nopReserved06 0x07 := by decide
theorem test_decode_reserved08 : decode 0x0800000000000000000000000000000000 = .nopReserved08 0x08 := by decide
theorem test_decode_reserved10 : decode 0x1F00000000000000000000000000000000 = .nopReserved10 0x1F := by decide
theorem test_decode_reserved20 : decode 0x2000000000000000000000000000000000 = .nopReserved20 0x20 := by decide
theorem test_decode_reserved40 : decode 0x7F00000000000000000000000000000000 = .nopReserved40 0x7F := by decide
theorem test_decode_reserved80 : decode 0x80407B8000000000003FE0000000000000 = .nopReserved80 0x80 ∧
    decode 0xFF00000000000000000000000000000000 = .nopReserved80 0xFF := by decide

/-- Bits that are no 136-bit word are rejected by name (30_encoding.md R52). -/
theorem test_decode_rejects_other_lengths : decodeBits 128 0 = .error (.notACommandWord 128) ∧
    decodeBits 144 0 = .error (.notACommandWord 144) ∧ decodeTableWord 144 0 = none := by
  exact ⟨rfl, rfl, rfl⟩

theorem test_decodeTableWord : decodeTableWord 136 0x01407B8000000000003FE0000000000000
    = some (.noteOn 0x407B800000000000 0x3FE0000000000000) := by decide

/-! ### One step of each command -/

/-- The state a step reaches, or the state itself. -/
def after (s : State) (w : Nat) : State :=
  match step (s.withFetchWord 136 w) with
  | .next t => t
  | .fault _ => s
  | .refused _ => s

/-- An active Piano voice. -/
def sounding (f a phase inc : F64) : Voice :=
  { active := true, frequency := f, amplitude := a, phase := phase, increment := inc, instrument := .piano }

/-- A 440 Hz voice as NOTE_ON leaves it, amplitude 0.5 (T2.1). -/
def voice440 : Voice := sounding 0x407B800000000000 0x3FE0000000000000 0 0x3F846EFDCB4A6B82

/-- Slots 0 and 1 at 440 Hz (T3.3). -/
def two440 : State := (State.reset.setVoice 0 voice440).setVoice 1 voice440

/-- Every slot active at 440 Hz. -/
def full : State := slots.foldl (fun s i => s.setVoice i voice440) State.reset

/-- T2.1. -/
theorem test_noteOn_writes_slot_zero :
    (after State.reset 0x01407B8000000000003FE0000000000000).voice 0 = voice440 := by decide +kernel
/-- T2.3: the lowest free slot, not the next after the highest used. -/
theorem test_noteOn_takes_the_lowest_free_slot :
    ((after (two440.setVoice 3 voice440) 0x01407B8000000000003FE0000000000000).voice 2).active = true ∧
    ((after (two440.setVoice 3 voice440) 0x01407B8000000000003FE0000000000000).voice 4).active = false := by
  decide +kernel
/-- T3.3: only the lower slot; T3.6: the zeros are equal. -/
theorem test_noteOff_releases_the_lower_slot :
    ((after two440 0x02407B8000000000000000000000000000).voice 0).active = false ∧
    ((after two440 0x02407B8000000000000000000000000000).voice 1).active = true := by decide +kernel
theorem test_noteOff_zeros_are_equal :
    ((after (State.reset.setVoice 0 (sounding 0 0 0 0)) 0x0280000000000000000000000000000000).voice 0).active
      = false := by decide +kernel
/-- T4.1 and T4.2. -/
theorem test_setInstrument_trumpet : (after two440 0x0300000000000000000000000000000002).di = .trumpet ∧
    ((after two440 0x0300000000000000000000000000000002).voice 0).instrument = .piano := by decide
theorem test_setInstrument_violin_and_piano : (after State.reset 0x0300000000000000000000000000000001).di = .violin ∧
    (after (after State.reset 0x0300000000000000000000000000000001) 0x0300000000000000000000000000000000).di = .piano := by
  decide
/-- T4.3 and T4.5. -/
theorem test_nop_rows_change_nothing : after two440 0x0000000000000000000000000000000000 = two440 ∧
    after two440 0x0300000000000000000000000000000003 = two440 ∧
    after two440 0x0500000000000000000000000000000000 = two440 ∧
    after two440 0xFF00000000000000000000000000000000 = two440 := by decide +kernel
/-- T5.1. -/
theorem test_render_of_silence : (after State.reset 0x0400000000000000000000000000000000).out = [⟨0, 0⟩] := by decide
/-- T5.4: the term is -0.0 and the frame +0.0 (any admissible sine; the reference one, which evaluates). -/
theorem test_render_first_frame :
    (renderFrame referenceSine (State.reset.setVoice 0 (sounding 0x407B800000000000 0xBFF0000000000000 0
      0x3F846EFDCB4A6B82))).out = [⟨0, 0⟩] := by decide +kernel
/-- The phase advances once. -/
theorem test_render_advances_the_phase :
    ((after (State.reset.setVoice 0 voice440) 0x0400000000000000000000000000000000).voice 0).phase
      = 0x3F846EFDCB4A6B82 := by decide +kernel
theorem test_step_is_idle_without_a_word : step State.reset = .next State.reset := rfl

/-! ### The wrap step (T5.2), the waveform (S4, T6.2, R109) and the primitives (T7) -/

theorem test_wrap_exactly_one : nextPhase 0x3FE8000000000000 0x3FD0000000000000 = 0 := by decide
theorem test_wrap_tie_rounds_up_to_one : nextPhase 0x3FEFFFFFFFFFFFFF 0x3C90000000000000 = 0 := by decide
theorem test_wrap_largest_sum : nextPhase 0x3FEFFFFFFFFFFFFF 0x3FEFFFFFFFFFFFFF = 0x3FEFFFFFFFFFFFFE := by decide
theorem test_wrap_outside_the_premise : nextPhase 0x3FF0000000000000 0x4000000000000000 = 0x4000000000000000 ∧
    nextPhase 0xBFD0000000000000 0xBFD0000000000000 = 0xBFE0000000000000 := by decide

/-- The three sines of the reference that S4 lists. -/
def sineOfS4 (x : F64) : F64 :=
  if x = 0x3FF921FB54442D18 then 0x3FF0000000000000
  else if x = 0x400921FB54442D18 then 0x3CA1A62633145C07
  else if x = 0x4012D97C7F3321D2 then 0xBFF0000000000000
  else 0

theorem test_waveform_S4 : waveform sineOfS4 .piano 0x3FD0000000000000 = 0x3FE999999999999A := by decide +kernel

/-- Rows of 42_waveform.md R109 within its 2.3e-10, for an admissible sine that evaluates. -/
theorem test_waveform_R109 :
    let near := fun x y : F64 => decide (10 ^ 11 * (fpUnits x - fpUnits y).natAbs ≤ 23 * 2 ^ 1074)
    near (waveform referenceSine .piano 0x3FC0000000000000) 0x3FF2605F0A4C5714 = true ∧
    near (waveform referenceSine .violin 0x3FC0000000000000) 0x3FE6666666666666 = true ∧
    near (waveform referenceSine .trumpet 0x3FE8000000000000) 0xBFECCCCCCCCCCCCD = true ∧
    near (waveform referenceSine .piano 0x3F846EFDCB4A6B82) 0x3FC19B6D6D9660D4 = true := by decide +kernel

theorem test_fadd : fadd 0x3FB999999999999A 0x3FC999999999999A = 0x3FD3333333333334 ∧
    fadd 0x3FF0000000000000 0x3CA0000000000000 = 0x3FF0000000000000 ∧
    fadd 0x3FF0000000000001 0x3CA0000000000000 = 0x3FF0000000000002 ∧
    fadd 0x8000000000000000 0x8000000000000000 = 0x8000000000000000 := by decide
theorem test_fsub : fsub 0x3FFFFFFFFFFFFFFF 0x3FF0000000000000 = 0x3FEFFFFFFFFFFFFE ∧
    fsub 0x3FF0000000000000 0x3FF0000000000000 = 0 := by decide
theorem test_fmul : fmul 0x3FC19B6D6D9660D4 0x3FE0000000000000 = 0x3FB19B6D6D9660D4 ∧
    fmul 0x3FD3333333333333 0x4008000000000000 = 0x3FECCCCCCCCCCCCC ∧
    fmul 0x7FE1CCF385EBC8A0 0x4024000000000000 = 0x7FF0000000000000 ∧
    fmul 0x0000000000000000 0xBFF0000000000000 = 0x8000000000000000 := by decide
theorem test_fdivFS : fdivFS 0x407B800000000000 = 0x3F846EFDCB4A6B82 ∧ fdivFS 0x40E5887FFFFFFFFF = 0x3FEFFFFFFFFFFFFF ∧
    fdivFS 0xC07B800000000000 = 0xBF846EFDCB4A6B82 ∧ fdivFS 0x40705A147AE147AE = 0x3F784CD66E06090B := by decide
theorem test_fge : fge 0x3FF0000000000000 0x3FF0000000000000 = true ∧
    fge 0x3FEFFFFFFFFFFFFF 0x3FF0000000000000 = false ∧ fge 0x7FF8000000000000 0x3FF0000000000000 = false := by decide
theorem test_feq : feq 0x0000000000000000 0x8000000000000000 = true ∧
    feq 0x7FF8000000000000 0x7FF8000000000000 = false ∧
    feq 0x407B800000000000 0x407B800000000001 = false := by decide

/-! ### The assembler (T2.1, T2.8, R68, R69) -/

theorem test_assemble_note_on :
    (readLine ['N','O','T','E',' ','O','N',' ','4','4','0',' ','0','.','5']).map assembleLine
      = some [0x01407B8000000000003FE0000000000000] := by decide
theorem test_assemble_negative_and_pattern :
    (readLine ['N','O','T','E',' ','O','N',' ','-','1','1','0','2','5',' ','0','x','3','F','F','0','0','0','0','0','0',
      '0','0','0','0','0','0','0']).map assembleLine = some [0x01C0C58880000000003FF0000000000000] := by decide
theorem test_assemble_render_many : readLine ['R','E','N','D','E','R',' ','8'] = some (.renderMany 8) ∧
    readLine ['r','e','n','d','e','r'] = none := by decide
theorem test_literal_261_63 : literalBits (.decimal false 26163 2) = 0x40705A147AE147AE := by decide

/-! ### Witnesses: for each statement with hypotheses, values that meet them, clause by clause -/

theorem witness_DecodeIsTheRulesDecode :
    (0x01407B8000000000003FE0000000000000 : CmdWord).extractLsb' 128 8 = 0x01 ∧
    (0x02407B8000000000000000000000000000 : CmdWord).extractLsb' 128 8 = 0x02 ∧
    ((0x0300000000000000000000000000000000 : CmdWord).extractLsb' 128 8 = 0x03 ∧
      (0x0300000000000000000000000000000000 : CmdWord).extractLsb' 0 2 = 0) ∧
    ((0x03FFFFFFFFFFFFFFFFFFFFFFFFFFFFFFFD : CmdWord).extractLsb' 128 8 = 0x03 ∧
      (0x03FFFFFFFFFFFFFFFFFFFFFFFFFFFFFFFD : CmdWord).extractLsb' 0 2 = 1) ∧
    ((0x0300000000000000000000000000000002 : CmdWord).extractLsb' 128 8 = 0x03 ∧
      (0x0300000000000000000000000000000002 : CmdWord).extractLsb' 0 2 = 2) ∧
    (0x0400000000000000000000000000000000 : CmdWord).extractLsb' 128 8 = 0x04 := by decide

/-- The last clause's hypotheses: op 0x00, a reserved op, and SET_INSTRUMENT with code 3. -/
def isNopWord (cw : CmdWord) : Bool :=
  cw.extractLsb' 128 8 != 0x01 && cw.extractLsb' 128 8 != 0x02 && cw.extractLsb' 128 8 != 0x04 &&
    (cw.extractLsb' 128 8 != 0x03 || cw.extractLsb' 0 2 == 3)

theorem witness_DecodeIsTheRulesDecode_nop :
    isNopWord 0x0000000000000000000000000000000000 = true ∧ isNopWord 0x0300000000000000000000000000000003 = true ∧
    isNopWord 0x0500000000000000000000000000000000 = true ∧ isNopWord 0xFF00000000000000000000000000000000 = true := by
  decide

theorem witness_DecodeReadsTheOneRowThatSelectsTheWord :
    (∃ r, opcodeTable[0]? = some r) ∧ (∃ r, opcodeTable[14]? = some r) ∧ opcodeTable[15]? = none :=
  ⟨⟨_, rfl⟩, ⟨_, rfl⟩, rfl⟩

theorem witness_EncodeThenDecodeGivesTheInstructionBack :
    ∀ i ∈ [Instr.nop, .noteOn 0x407B800000000000 0x3FE0000000000000, .noteOff 0x7FF8000000000000, .setInstrumentPiano,
        .setInstrumentViolin, .setInstrumentTrumpet, .nopMalformedSetInstrument, .render, .nopReserved05,
        .nopReserved06 0x06, .nopReserved06 0x07, .nopReserved08 0x08, .nopReserved08 0x0F, .nopReserved10 0x10,
        .nopReserved10 0x1F, .nopReserved20 0x20, .nopReserved20 0x3F, .nopReserved40 0x40, .nopReserved40 0x7F,
        .nopReserved80 0x80, .nopReserved80 0xFF], i.wellFormed = true := by decide

theorem witness_DecodeThenEncodeKeepsTheUsedFields :
    cwOp 0x01407B8000000000003FE0000000000000 = 0x01 ∧ cwOp 0x02407B800000000000FFFFFFFFFFFFFFFF = 0x02 ∧
    cwOp 0x0300000000000000000000000000000007 = 0x03 := by decide

theorem witness_IgnoredFieldsDoNotChangeTheCommand :
    ((0x02 : BitVec 8) = 0x02) ∧
    ((0x03 : BitVec 8) = 0x03 ∧ (0x5 : F64).extractLsb' 0 2 = (0xFFFFFFFFFFFFFFFD : F64).extractLsb' 0 2) ∧
    ∀ op ∈ [(0x00 : BitVec 8), 0x04, 0x05, 0xFF], op ≠ 0x01 ∧ op ≠ 0x02 ∧ op ≠ 0x03 := by decide

theorem witness_ReservedAndMalformedWordsChangeNothing :
    0x05 ≤ ((0x0500000000000000000000000000000000 : CmdWord).extractLsb' 128 8).toNat ∧
    0x05 ≤ ((0xFF00000000000000000000000000000000 : CmdWord).extractLsb' 128 8).toNat ∧
    (0x0300000000000000000000000000000007 : CmdWord).extractLsb' 128 8 = 0x03 ∧
    (0x0300000000000000000000000000000007 : CmdWord).extractLsb' 0 2 = 3 := by decide

theorem witness_StepRunsTheDecodedInstruction :
    (two440.setPending [0x0400000000000000000000000000000000]).pending
      = 0x0400000000000000000000000000000000 :: [] ∧
    two440.pending = [] ∧ Instr.wellFormed (.nopReserved80 0xFF) = true := by decide

/-- Slot 0 of the reset state; slot 15 with all others active; no slot free. -/
theorem witness_NoteOnWritesTheLowestFreeSlot :
    ((State.reset.voice 0).active = false ∧ ∀ j < (0 : Slot), (State.reset.voice j).active = true) ∧
    (((full.setVoice 15 Voice.reset).voice 15).active = false ∧
      ∀ j < (15 : Slot), ((full.setVoice 15 Voice.reset).voice j).active = true) ∧
    (∀ i, (full.voice i).active = true) ∧
    isNaN 0x8000000000000001 = false ∧ isInf 0xFFF0000000000000 = true ∧ isNaN 0xFFF0000000000001 = true := by
  decide +kernel

/-- The hypotheses of NOTE_OFF's clauses, as the statement's own test. -/
def matchesOff (f : F64) (s : State) (i : Slot) : Bool :=
  (s.voice i).active && !isNaN (s.voice i).frequency && !isNaN f &&
    (decide ((s.voice i).frequency = f) || isZero (s.voice i).frequency && isZero f)

/-- Slot 0 of two matches; slot 15 by the equality of the zeros; nothing active; a NaN frequency. -/
theorem witness_NoteOffClearsTheLowestMatch :
    (matchesOff 0x407B800000000000 two440 0 = true ∧
      ∀ j < (0 : Slot), matchesOff 0x407B800000000000 two440 j = false) ∧
    (matchesOff 0x8000000000000000 (full.setVoice 15 (sounding 0 0 0 0)) 15 = true ∧
      ∀ j < (15 : Slot), matchesOff 0x8000000000000000 (full.setVoice 15 (sounding 0 0 0 0)) j = false) ∧
    (∀ i, matchesOff 0x407B800000000000 State.reset i = false) ∧
    ∀ i, matchesOff 0x7FF8000000000000 (full.setVoice 0 (sounding 0x7FF8000000000000 0 0 0)) i = false := by
  decide +kernel

/-- Also for SetInstrumentAssignsTheDefault, RenderOfNoVoiceEmitsZero. -/
theorem witness_free_slots : (State.reset.voice 0).active = false ∧ ∀ i, (State.reset.voice i).active = false := by
  decide

theorem witness_NopChangesNothing : Instr.isNop .nop = true ∧ Instr.isNop .nopMalformedSetInstrument = true ∧
    Instr.isNop .nopReserved05 = true ∧ Instr.isNop (.nopReserved80 0xFF) = true := by decide

/-- Slot 0 becomes active; slot 15 becomes active; slot 0 becomes free and is the first match. -/
theorem witness_ActiveBitsMoveOnlyByAllocationAndRelease :
    (∃ t, exec (.noteOn 0x407B800000000000 0x3FE0000000000000) State.reset = .next t ∧
      (State.reset.voice 0).active = false ∧ (t.voice 0).active = true ∧
      ∀ k < (0 : Slot), (State.reset.voice k).active = true) ∧
    (∃ t, exec (.noteOn 0x407B800000000000 0x3FE0000000000000) (full.setVoice 15 Voice.reset) = .next t ∧
      ((full.setVoice 15 Voice.reset).voice 15).active = false ∧ (t.voice 15).active = true ∧
      ∀ k < (15 : Slot), ((full.setVoice 15 Voice.reset).voice k).active = true) ∧
    ∃ t, exec (.noteOff 0x407B800000000000) two440 = .next t ∧
      (two440.voice 0).active = true ∧ (t.voice 0).active = false ∧
      feq (two440.voice 0).frequency 0x407B800000000000 = true ∧
      ∀ k < (0 : Slot), (two440.voice k).active = true → feq (two440.voice k).frequency 0x407B800000000000 = false := by
  refine ⟨⟨_, rfl, ?_⟩, ⟨_, rfl, ?_⟩, ⟨_, rfl, ?_⟩⟩ <;> decide +kernel

/-- For VoiceDataIsFixedUntilTheSlotIsAllocated: a next state. -/
theorem witness_exec_answers_next :
    (∃ t, exec (.noteOn 0x407B800000000000 0x3FE0000000000000) State.reset = .next t) ∧
    ∃ t, exec .render two440 = .next t := ⟨⟨_, rfl⟩, ⟨_, rfl⟩⟩

theorem witness_PoolFillsInOrderOfArrival :
    (∀ i, (State.reset.voice i).active = false) ∧
    (List.replicate 16 ((0x407B800000000000 : F64), (0x3FE0000000000000 : F64))).length = 16 ∧
    (List.replicate 16 ((0x407B800000000000 : F64), (0x3FE0000000000000 : F64)))[15]?
      = some (0x407B800000000000, 0x3FE0000000000000) := by decide

theorem witness_NoteOnThenNoteOffLeavesNoVoice :
    (∀ i, (State.reset.voice i).active = false) ∧
    SameLiteral 0x01407B8000000000003FE0000000000000 0x02407B8000000000000000000000000000 ∧
    isNaN (cwA 0x01407B8000000000003FE0000000000000) = false :=
  ⟨by decide, ⟨0x407B800000000000, 0x3FE0000000000000, by decide, by decide⟩, by decide⟩

theorem witness_DuplicateFrequencyReleasesTheLowerSlot :
    (∀ i, (State.reset.voice i).active = false) ∧ isNaN 0x407B800000000000 = false := by decide

/-- An active voice that wraps (slot 15, exactly 1.0), one that does not (slot 0), and a free slot. -/
theorem witness_RenderEmitsTheFoldAndAdvancesThePhases :
    let s := two440.setVoice 15 (sounding 0x40C5888000000000 0x3FF0000000000000 0x3FE8000000000000 0x3FD0000000000000)
    ((s.voice 15).active = true ∧ fge (fadd (s.voice 15).phase (s.voice 15).increment) 0x3FF0000000000000 = true) ∧
    ((s.voice 0).active = true ∧ fge (fadd (s.voice 0).phase (s.voice 0).increment) 0x3FF0000000000000 = false) ∧
    (s.voice 7).active = false := by decide +kernel

theorem witness_WrapSubtractsOneAtMostOnce :
    isNaN 0x7FF8000000000000 = true ∧ fpUnits 0x3FEFFFFFFFFFFFFF < fpUnits 0x3FF0000000000000 ∧
    (isNaN 0x7FF0000000000000 = false ∧ fpUnits 0x3FF0000000000000 ≤ fpUnits 0x7FF0000000000000) ∧
    (isNaN 0x3FF0000000000000 = false ∧ fpUnits 0x3FF0000000000000 ≤ fpUnits 0x3FF0000000000000 ∧
      fpUnits 0x3FF0000000000000 < fpUnits 0x4000000000000000) ∧
    fpUnits 0x3FFFFFFFFFFFFFFF < fpUnits 0x4000000000000000 ∧
    (isFinite 0x4000000000000000 = true ∧ fpUnits 0x4000000000000000 ≤ fpUnits 0x4000000000000000) ∧
    (isFinite 0x7FEFFFFFFFFFFFFF = true ∧ fpUnits 0x4000000000000000 ≤ fpUnits 0x7FEFFFFFFFFFFFFF) ∧
    (isNaN 0x8000000000000001 = false ∧ fpUnits 0x8000000000000001 < 0) ∧
    (phaseInRange 0x3FEFFFFFFFFFFFFF = true ∧ isNaN 0x3FF0000000000001 = false ∧
      fpUnits 0x4000000000000000 ≤ fpUnits (fadd 0x3FEFFFFFFFFFFFFF 0x3FF0000000000001)) ∧
    phaseInRange 0x0000000000000000 = true ∧ fpUnits (fadd 0x0000000000000000 0x8000000000000001) < 0 := by
  decide +kernel

theorem witness_NextPhaseStaysInTheUnitInterval :
    (phaseInRange 0x3FEFFFFFFFFFFFFF = true ∧ inUnitInterval 0x3FEFFFFFFFFFFFFF = true) ∧
    phaseInRange 0x0000000000000000 = true ∧ inUnitInterval 0x8000000000000000 = true := by decide +kernel

theorem witness_TwoVoicesSuperpose :
    (let s := State.reset.setVoice 14 voice440 |>.setVoice 15 voice440;
      (14 : Slot) < 15 ∧ ∀ i, (s.voice i).active = true ↔ i = 14 ∨ i = 15) ∧
    ((0 : Slot) < 1 ∧ ∀ i, (two440.voice i).active = true ↔ i = 0 ∨ i = 1) := by decide +kernel

/-- The term of a voice that starts, with amplitude 0.5, is +0.0. -/
theorem witness_TwoVoicesSuperpose_term :
    let term := fmul (waveform sinUnit (two440.voice 0).instrument (two440.voice 0).phase) (two440.voice 0).amplitude
    isNaN term = false ∧ term ≠ 0x8000000000000000 := by
  have hv : two440.voice 0 = voice440 := by decide +kernel
  have h1 : fmul fpTwoPi (0 : F64) = fpZero := by decide
  have h2 : fmul 0x4000000000000000#64 fpZero = fpZero := by decide
  have h3 : fmul 0x4008000000000000#64 fpZero = fpZero := by decide
  simp only [hv, voice440, sounding, waveform, recipe, harmonicArg, h1, h2, h3, sinUnit_zero]
  decide +kernel

/-- Slot 0 as NOTE_ON leaves it; slot 15 at the ends of the ranges: phase and increment just below 1, amplitude
2^1000. -/
def atTheBounds : State :=
  (State.reset.setVoice 0 voice440).setVoice 15
    (sounding 0x40E5887FFFFFFFFF fpTwoPow1000 0x3FEFFFFFFFFFFFFF 0x3FEFFFFFFFFFFFFF)

theorem witness_FramesWithinThePremisesAreFinite : VoicesInPremise atTheBounds := by
  unfold VoicesInPremise
  decide +kernel

theorem witness_IntendedAmplitudesBoundTheFrame :
    let s := State.reset.setVoice 15 (sounding 0x40E5887FFFFFFFFF 0x3FF0000000000000 0 0x3FEFFFFFFFFFFFFF)
    VoicesInPremise s ∧
      ∀ i, (s.voice i).active = true → amplitudeIntended (s.voice i).amplitude = true := by
  unfold VoicesInPremise
  decide +kernel

theorem witness_EveryCommandKeepsPhasesInRange : PhasesInRange atTheBounds ∧ ∃ t, exec .render atTheBounds = .next t := by
  refine ⟨?_, _, rfl⟩
  unfold PhasesInRange
  decide +kernel

theorem engineInv_two440 (p : List CmdWord) (out : List Frame) (h : ∀ f ∈ out, f.left = f.right) :
    EngineInv { two440 with pending := p, out := out } := by
  constructor
  · unfold PhasesInRange
    change ∀ i, (two440.voice i).active = true → inUnitInterval (two440.voice i).increment = true →
      phaseInRange (two440.voice i).phase = true
    decide +kernel
  · unfold IncrementsDerived
    change ∀ i, (two440.voice i).active = true → (two440.voice i).increment = fdivFS (two440.voice i).frequency
    decide +kernel
  · exact h
  · exact Nat.zero_le _

/-- Two voices, one frame emitted, a RENDER to execute. -/
theorem witness_EveryStepKeepsTheEngineInvariant :
    ∃ s t, EngineInv s ∧ s.pending ≠ [] ∧ step s = .next t :=
  ⟨{ two440 with pending := [0x0400000000000000000000000000000000], out := [⟨0, 0⟩] }, _,
    engineInv_two440 _ _ (by simp), by simp, rfl⟩

/-- The words that test both ends of the premises: the least frequency, the greatest, amplitude 2^1000. -/
def premiseWords : List CmdWord :=
  [0x0100000000000000013FE0000000000000, 0x0140E5887FFFFFFFFF7E70000000000000, 0x0400000000000000000000000000000000]

theorem premiseWords_decode :
    premiseWords.map decode = [.noteOn 1 0x3FE0000000000000, .noteOn 0x40E5887FFFFFFFFF fpTwoPow1000, .render] := by
  decide

theorem witness_PremisesKeepVoicesInRange :
    let s := atTheBounds.setPending premiseWords
    VoicesInPremise s ∧ FreqInRange s.pending ∧ AmpFinite s.pending ∧ ∃ t, step s = .next t := by
  have hmem : ∀ cw ∈ premiseWords, ∀ f a, decode cw = .noteOn f a →
      frequencyInRange f = true ∧ amplitudeFinite a = true := by
    intro cw hcw f a hd
    have := List.mem_map_of_mem (f := decode) hcw
    rw [premiseWords_decode, hd] at this
    simp only [List.mem_cons, Instr.noteOn.injEq, reduceCtorEq, List.not_mem_nil, or_false] at this
    rcases this with ⟨rfl, rfl⟩ | ⟨rfl, rfl⟩ <;> decide +kernel
  exact ⟨witness_FramesWithinThePremisesAreFinite, fun cw h f a hd => (hmem cw h f a hd).1,
    fun cw h f a hd => (hmem cw h f a hd).2, _, rfl⟩

theorem witness_FrequencyInRangeGivesIncrementBelowOne :
    frequencyInRange 0x0000000000000001 = true ∧ frequencyInRange 0x40E5887FFFFFFFFF = true := by decide +kernel

theorem witness_KthRenderGivesTheKthFrame : decode 0x0400000000000000000000000000000000 = .render := by decide

/-- Two states that differ in the stale fields of slot 3. -/
theorem witness_DataOfFreeSlotsIsUnobservable :
    SameButFreeData (two440.setVoice 3 { voice440 with active := false }) two440 ∧
    two440.setVoice 3 { voice440 with active := false } ≠ two440 := by
  unfold SameButFreeData
  decide +kernel

theorem witness_SinkTakesTheFramesInOrder :
    (let s : State := { two440 with out := [⟨1, 1⟩, ⟨2, 2⟩], taken := 1 };
      s.out[s.taken]? = some ⟨2, 2⟩) ∧
    (let s : State := { two440 with out := [⟨1, 1⟩, ⟨2, 2⟩], taken := 2 };
      s.out.length ≤ s.taken) := by decide

/-- A sink that accepts in every cycle, with a frame to take and two commands to execute. -/
theorem witness_EveryRenderCompletesWhileTheSinkDrains :
    let s : State := { two440 with out := [⟨1, 1⟩], pending := [0x0400000000000000000000000000000000, 0] }
    TakenWithin s ∧ SinkDrains (fun _ => true) s := ⟨by unfold TakenWithin; decide, fun n _ _ _ => ⟨n, le_rfl, rfl⟩⟩

/-- A command that is no RENDER; a RENDER; frames beyond the buffer, whatever its depth, and none taken. -/
theorem witness_OnlyRenderWaitsAndTheStateIsIntact :
    (Instr.noteOff 0 ≠ .render ∧ ∃ t, exec (.noteOff 0) two440 = .next t) ∧ (∃ t, exec .render two440 = .next t) ∧
    ∃ s : State, cmdReady s = false :=
  ⟨⟨by decide, _, rfl⟩, ⟨_, rfl⟩, { two440 with out := List.replicate (Config.outputDepth + 1) ⟨0, 0⟩ },
    by simp [cmdReady, show two440.taken = 0 from rfl]⟩

theorem witness_ThePortsChangeNoValue : TakenWithin two440 := Nat.zero_le _

theorem witness_SineHasItsNamedProperties :
    isFinite 0xFFEFFFFFFFFFFFFF = true ∧ isFinite 0x7FF0000000000000 = false ∧ isFinite 0x7FF8000000000000 = false ∧
    (isFinite fpTwoPi = true ∧ 0 ≤ fpUnits fpTwoPi ∧ fpUnits fpTwoPi ≤ 38 * 2 ^ 1074) := by decide +kernel

theorem witness_WaveformIsBoundedByItsWeights :
    (isFinite 0xFE70000000000000 = true ∧ fpMag 0xFE70000000000000 ≤ fpMag fpTwoPow1000) ∧
    isFinite 0x8000000000000000 = true ∧ fpMag 0x8000000000000000 ≤ fpMag fpTwoPow1000 := by decide +kernel

theorem witness_PianoAtQuarterCycleIsNearEightTenths : ∃ (sin : F64 → F64) (eps : ℝ), SineAdmissible sin eps :=
  ⟨referenceSine, _, referenceSine_admissible⟩

theorem witness_WaveformIsNearTheRealFormula :
    phaseInRange 0x0000000000000000 = true ∧ phaseInRange 0x3FEFFFFFFFFFFFFF = true := by decide +kernel

/-- Finite operands: the least subnormal, the greatest value, the zeros. Also multiplication's first clause. -/
theorem witness_ArithmeticRoundsToNearestEven : isFinite 0x8000000000000001 = true ∧
    isFinite 0x7FEFFFFFFFFFFFFF = true ∧ isFinite 0x8000000000000000 = true := by decide

theorem witness_AdditionLaws :
    (fpUnits 0x3FF0000000000000 + fpUnits 0xBFF0000000000000 = 0 ∧
      ¬ ((0x3FF0000000000000 : F64) = 0x8000000000000000 ∧ (0xBFF0000000000000 : F64) = 0x8000000000000000)) ∧
    (fpUnits 0x0000000000000000 + fpUnits 0x8000000000000000 = 0 ∧
      ¬ ((0x0000000000000000 : F64) = 0x8000000000000000 ∧ (0x8000000000000000 : F64) = 0x8000000000000000)) ∧
    (isNaN 0x8000000000000001 = false ∧ (0x8000000000000001 : F64) ≠ 0x8000000000000000) ∧
    (isInf 0xFFF0000000000000 = true ∧ isFinite 0x7FEFFFFFFFFFFFFF = true) ∧ isNaN 0x7FF0000000000001 = true := by
  decide +kernel

theorem witness_SubtractionLaws : isNaN 0xFFF0000000000000 = false ∧ isNaN 0xFFF0000000000001 = true ∧
    isFinite 0x0000000000000001 = true := by decide

theorem witness_MultiplicationLaws :
    (isFinite 0xFFEFFFFFFFFFFFFF = true ∧ isZero 0x8000000000000000 = true) ∧
    (isInf 0xFFF0000000000000 = true ∧ isNaN 0x0000000000000001 = false ∧ isZero 0x0000000000000001 = false) ∧
    (isInf 0x7FF0000000000000 = true ∧ isZero 0x8000000000000000 = true) ∧ isNaN 0x7FF8000000000000 = true := by
  decide

theorem witness_DivisionByTheSampleRateLaws : isFinite 0x0000000000000001 = true ∧ fpMag 22050 ≤ 22050 ∧
    isInf 0xFFF0000000000000 = true ∧ isNaN 0xFFFFFFFFFFFFFFFF = true := by decide

theorem witness_GreaterOrEqualLaws :
    (isFinite 0x8000000000000001 = true ∧ isFinite 0x7FEFFFFFFFFFFFFF = true) ∧
    (isZero 0x8000000000000000 = true ∧ isZero 0x0000000000000000 = true) ∧ isNaN 0x7FF0000000000000 = false ∧
    isNaN 0x7FF0000000000001 = true := by decide

theorem witness_NanResultsAreUnspecifiedNans : isNaN 0x7FF0000000000001 = true ∧ isNaN 0xFFFFFFFFFFFFFFFF = true := by
  decide

theorem witness_ExactCases :
    (fpUnits 0x3FF0000000000000 ≤ fpUnits 0x3FF0000000000000 ∧
      fpUnits 0x3FF0000000000000 < fpUnits 0x4000000000000000) ∧
    (fpUnits 0x3FF0000000000000 ≤ fpUnits 0x3FFFFFFFFFFFFFFF ∧
      fpUnits 0x3FFFFFFFFFFFFFFF < fpUnits 0x4000000000000000) ∧
    isFinite (fmul 0x4000000000000000 0x7FDFFFFFFFFFFFFF) = true ∧
    isFinite (fmul 0x4010000000000000 0x8000000000000001) = true ∧
    isNaN 0x3FEFFFFFFFFFFFFF = false ∧ fpUnits 0x3FEFFFFFFFFFFFFF < fpUnits 0x3FF0000000000000 ∧
    isNaN 0xFFF0000000000000 = false ∧ fpUnits 0xFFF0000000000000 < fpUnits 0x3FF0000000000000 := by decide +kernel

end Sys2Proof.Tests
end

section
/-! PROOFS. The phase interval (10_state.md R34, 41_render_mix.md R92): advance and wrap keep a phase in [0,1) and
never store -0.0. -/

namespace Sys2Proof.Machine

/-- The greatest value below 1.0. -/
def fpPredOne : F64 := 0x3FEFFFFFFFFFFFFF#64

/-- The greatest value below 2.0, the sum of `fpPredOne` with itself. -/
def fpPredTwo : F64 := 0x3FFFFFFFFFFFFFFF#64

theorem fpUnits_of_sign_false {x : F64} (h : fpSign x = false) : fpUnits x = fpMag x := by
  simp [fpUnits, h]

/-- Between `fpPredOne` and 1.0 there is no value. -/
theorem fpUnits_le_predOne {x : F64} (h : fpUnits x < fpUnits fpOne) : fpUnits x ≤ fpUnits fpPredOne := by
  have hone : fpUnits fpOne = fpMag fpOne := fpUnits_of_sign_false (by decide)
  have hpred : fpUnits fpPredOne = fpMag fpPredOne := fpUnits_of_sign_false (by decide)
  have hlow : fpLow fpOne = fpLow fpPredOne + 1 := by decide
  cases hs : fpSign x with
  | true =>
    have hneg : fpUnits x = -(fpMag x : Int) := by simp [fpUnits, hs]
    omega
  | false =>
    have hmag : fpUnits x = fpMag x := fpUnits_of_sign_false hs
    have hlt : ¬ fpMag fpOne ≤ fpMag x := by omega
    have hle : fpMag x ≤ fpMag fpPredOne := by
      rw [fpMag_le_iff] at hlt ⊢
      omega
    omega

/-- `inUnitInterval` with its parts named. -/
theorem inUnitInterval_iff (x : F64) :
    inUnitInterval x = true ↔ isFinite x = true ∧ 0 ≤ fpUnits x ∧ fpUnits x < fpUnits fpOne := by
  simp [inUnitInterval]

/-- A phase is in range exactly when its sign bit is clear and its value is below 1.0: finiteness and the lower bound
follow. -/
theorem phaseInRange_iff (x : F64) :
    phaseInRange x = true ↔ fpSign x = false ∧ fpUnits x < fpUnits fpOne := by
  simp only [phaseInRange, Bool.and_eq_true, Bool.not_eq_true', inUnitInterval_iff]
  constructor
  · rintro ⟨⟨-, -, hlt⟩, hs⟩
    exact ⟨hs, hlt⟩
  · rintro ⟨hs, hlt⟩
    have hmag : fpUnits x = fpMag x := fpUnits_of_sign_false hs
    have hle : fpMag x ≤ fpMag fpOne := by
      have := fpUnits_of_sign_false (x := fpOne) (by decide)
      omega
    exact ⟨⟨isFinite_of_low_le (by decide) ((fpMag_le_iff _ _).mp hle), by omega, hlt⟩, hs⟩

theorem isFinite_of_phaseInRange {x : F64} (h : phaseInRange x = true) : isFinite x = true := by
  simp only [phaseInRange, Bool.and_eq_true, inUnitInterval_iff] at h
  exact h.1.1

/-- NOTE_ON starts a voice at phase +0.0, in range (40_voice_control.md R71). -/
theorem phaseInRange_zero : phaseInRange fpZero = true := by decide

/-- A sum that is not negative has a clear sign bit, unless it is (-0.0) + (-0.0). -/
theorem fpSign_fadd_of_nonneg {a b : F64} (ha : isFinite a = true) (hb : isFinite b = true)
    (hs : (fpSign a && fpSign b) = false) (h : 0 ≤ fpUnits a + fpUnits b) : fpSign (fadd a b) = false := by
  rw [fadd_finite ha hb, fpSign_pack _ (roundMag_lt _ _)]
  split
  · exact hs
  · simpa using h

/-- A sum of finite values is never a NaN: it may overflow to an infinity (43_numerics.md R112). -/
theorem not_isNaN_fadd {a b : F64} (ha : isFinite a = true) (hb : isFinite b = true) : isNaN (fadd a b) = false := by
  rw [fadd_finite ha hb]
  exact isNaN_round _ _ _

/-- The advanced phase, before the wrap: no sign bit, at most the value before 2.0. -/
theorem fadd_unit_phase {p inc : F64} (hp : phaseInRange p = true) (hinc : inUnitInterval inc = true) :
    isNaN (fadd p inc) = false ∧ fpSign (fadd p inc) = false ∧ fpUnits (fadd p inc) ≤ fpUnits fpPredTwo := by
  obtain ⟨hps, hp1⟩ := (phaseInRange_iff p).mp hp
  have hpf : isFinite p = true := isFinite_of_phaseInRange hp
  obtain ⟨hif, hi0, hi1⟩ := (inUnitInterval_iff inc).mp hinc
  have hsum : fpUnits p + fpUnits inc ≤ fpUnits fpPredTwo := by
    have htwo : fpUnits fpPredOne + fpUnits fpPredOne = fpUnits fpPredTwo := by decide +kernel
    linarith [fpUnits_le_predOne hp1, fpUnits_le_predOne hi1]
  have hnonneg : 0 ≤ fpUnits p + fpUnits inc := by
    have hpmag := fpUnits_of_sign_false hps
    omega
  exact ⟨not_isNaN_fadd hpf hif, fpSign_fadd_of_nonneg hpf hif (by simp [hps]) hnonneg,
    fadd_units_le hpf hif (by decide) hsum⟩

/-- One subtraction brings a phase in [1,2) back into [0,1) (41_render_mix.md R87). -/
theorem phaseInRange_fsub_one {q : F64} (hs : fpSign q = false) (hge : fpUnits fpOne ≤ fpUnits q)
    (hle : fpUnits q ≤ fpUnits fpPredTwo) : phaseInRange (fsub q fpOne) = true := by
  have hneg : fpUnits (fneg fpOne) = -fpUnits fpOne := fpUnits_fneg fpOne
  have hqf : isFinite q = true := by
    rw [fpUnits_of_sign_false hs, fpUnits_of_sign_false (x := fpPredTwo) (by decide)] at hle
    exact isFinite_of_low_le (y := fpPredTwo) (by decide) ((fpMag_le_iff _ _).mp (by exact_mod_cast hle))
  have hof : isFinite (fneg fpOne) = true := by decide
  have hdiff : fpUnits q + fpUnits (fneg fpOne) ≤ fpUnits fpPredOne := by
    have htwo : fpUnits fpPredTwo - fpUnits fpOne ≤ fpUnits fpPredOne := by decide +kernel
    linarith
  rw [fsub_eq (by decide), phaseInRange_iff]
  constructor
  · exact fpSign_fadd_of_nonneg hqf hof (by simp [hs]) (by linarith)
  · exact lt_of_le_of_lt (fadd_units_le hqf hof (by decide) hdiff) (by decide +kernel)

/-- Advance and wrap keep a phase in [0,1), and never store -0.0 (41_render_mix.md R92). -/
theorem phaseInRange_nextPhase {p inc : F64} (hp : phaseInRange p = true) (hinc : inUnitInterval inc = true) :
    phaseInRange (nextPhase p inc) = true := by
  obtain ⟨hnan, hs, hle⟩ := fadd_unit_phase hp hinc
  have hge : fge (fadd p inc) fpOne = true ↔ fpUnits fpOne ≤ fpUnits (fadd p inc) := by
    simp [fge, hnan, show isNaN fpOne = false from by decide]
  unfold nextPhase wrapPhase
  split
  case isTrue h => exact phaseInRange_fsub_one hs (hge.mp h) hle
  case isFalse h => exact (phaseInRange_iff _).mpr ⟨hs, not_le.mp (mt hge.mpr h)⟩

end Sys2Proof.Machine
end

section
/-! PROOFS. What one instruction does to one slot and to OUT, and the engine's invariant over it (10_state.md R26, R30,
R34, R36). -/

namespace Sys2Proof.Machine

/-- RENDER leaves a free slot alone, and of an active voice moves the phase alone (41_render_mix.md R82, R86, R90). -/
theorem advanceVoice_cases (v : Voice) :
    advanceVoice v = v ∨ v.active = true ∧ advanceVoice v = { v with phase := nextPhase v.phase v.increment } := by
  cases h : v.active with
  | true => exact .inr ⟨rfl, by rw [advanceVoice, h, if_pos rfl]⟩
  | false => exact .inl (advanceVoice_of_free v h)

/-- All an instruction can do to one slot: keep it, allocate it, release it, advance its phase. -/
theorem exec_voice_cases {i : Instr} {s t : State} (h : exec i s = .next t) (j : Slot) :
    t.voice j = s.voice j ∨
    (∃ f a, i = .noteOn f a ∧ firstFree s = some j ∧ t.voice j = newVoice f a s.di) ∨
    (∃ f, i = .noteOff f ∧ firstMatch s f = some j ∧ t.voice j = { s.voice j with active := false }) ∨
    (i = .render ∧ (s.voice j).active = true ∧
      t.voice j = { s.voice j with phase := nextPhase (s.voice j).phase (s.voice j).increment }) := by
  rcases exec_cases h with ⟨-, rfl⟩ | ⟨f, a, rfl, rfl⟩ | ⟨f, rfl, rfl⟩ | ⟨k, -, rfl⟩ | ⟨rfl, rfl⟩
  · exact .inl rfl
  · rcases allocate_cases f a s with ⟨-, he⟩ | ⟨k, hk, he⟩ <;> rw [he]
    · exact .inl rfl
    · rcases eq_or_ne j k with rfl | hjk
      · exact .inr (.inl ⟨f, a, rfl, hk, State.voice_setVoice_same s j _⟩)
      · exact .inl (State.voice_setVoice_ne s _ hjk)
  · rcases release_cases f s with ⟨-, he⟩ | ⟨k, hk, he⟩ <;> rw [he]
    · exact .inl rfl
    · rcases eq_or_ne j k with rfl | hjk
      · exact .inr (.inr (.inl ⟨f, rfl, hk, State.voice_setVoice_same s j _⟩))
      · exact .inl (State.voice_setVoice_ne s _ hjk)
  · exact .inl (voice_setDefaultInstrument k s j)
  · rw [renderFrame_voice]
    rcases advanceVoice_cases (s.voice j) with he | ⟨hactive, he⟩
    · exact .inl he
    · exact .inr (.inr (.inr ⟨rfl, hactive, he⟩))

/-- All an instruction can do to OUT: keep it, or, RENDER alone, append one frame of equal halves
(41_render_mix.md R88, R91). -/
theorem exec_out_cases {i : Instr} {s t : State} (h : exec i s = .next t) :
    t.out = s.out ∨ (i = .render ∧ ∃ x : Frame, x.left = x.right ∧ t.out = s.out ++ [x]) := by
  rcases exec_cases h with ⟨-, rfl⟩ | ⟨f, a, -, rfl⟩ | ⟨f, -, rfl⟩ | ⟨k, -, rfl⟩ | ⟨hi, rfl⟩
  · exact .inl rfl
  · rcases allocate_cases f a s with ⟨-, he⟩ | ⟨j, -, he⟩ <;> exact .inl (by simp [he])
  · rcases release_cases f s with ⟨-, he⟩ | ⟨j, -, he⟩ <;> exact .inl (by simp [he])
  · exact .inl (out_setDefaultInstrument k s)
  · exact .inr ⟨hi, _, foldl_mixVoice_mono sinUnit slots s.voice _ rfl, renderFrame_out sinUnit s⟩

/-- Settles O15: of the four things an instruction can do to a slot, only the allocation writes these fields. -/
theorem voiceDataIsFixedUntilTheSlotIsAllocated : Obligations.VoiceDataIsFixedUntilTheSlotIsAllocated := by
  intro i s t j h
  rcases exec_voice_cases h j with he | ⟨f, a, hi, hfree, -⟩ | ⟨f, -, -, he⟩ | ⟨-, -, he⟩
  · left; simp [he]
  · exact .inr ⟨⟨f, a, hi⟩, (firstFree_eq_some s j).mp hfree⟩
  · left; simp [he]
  · left; simp [he]

/-- Settles O27: a kept or released slot is as before, a new voice starts at phase +0.0, and RENDER's advance and wrap
keep the interval (`phaseInRange_nextPhase`). -/
theorem everyCommandKeepsPhasesInRange : Obligations.EveryCommandKeepsPhasesInRange := by
  intro i s t hs h j
  rcases exec_voice_cases h j with he | ⟨f, a, -, -, he⟩ | ⟨f, -, -, he⟩ | ⟨-, hactive, he⟩ <;> rw [he]
  · exact hs j
  · exact fun _ _ => phaseInRange_zero
  · exact fun hactive => absurd hactive Bool.false_ne_true
  · exact fun _ hinc => phaseInRange_nextPhase (hs j hactive hinc) hinc

/-- Increments stay derived: NOTE_ON derives one, nothing else writes an increment or a frequency (10_state.md R26). -/
theorem IncrementsDerived.exec {i : Instr} {s t : State} (hs : IncrementsDerived s) (h : exec i s = .next t) :
    IncrementsDerived t := by
  intro j
  rcases exec_voice_cases h j with he | ⟨f, a, -, -, he⟩ | ⟨f, -, -, he⟩ | ⟨-, -, he⟩ <;> rw [he]
  · exact hs j
  · exact fun _ => rfl
  · exact fun hactive => absurd hactive Bool.false_ne_true
  · exact hs j

theorem FramesMono.exec {i : Instr} {s t : State} (hs : FramesMono s) (h : exec i s = .next t) : FramesMono t := by
  rcases exec_out_cases h with ho | ⟨-, x, hx, ho⟩ <;> rw [FramesMono, ho]
  · exact hs
  · intro f hf
    rcases List.mem_append.mp hf with hf | hf
    · exact hs f hf
    · rwa [List.mem_singleton.mp hf]

theorem TakenWithin.exec {i : Instr} {s t : State} (hs : TakenWithin s) (h : exec i s = .next t) : TakenWithin t := by
  unfold TakenWithin at hs ⊢
  rw [exec_taken h]
  rcases exec_out_cases h with ho | ⟨-, x, -, ho⟩
  · rwa [ho]
  · rw [ho, List.length_append]
    exact Nat.le_add_right_of_le hs

/-- Every instruction keeps the engine's invariant. -/
theorem EngineInv.exec {i : Instr} {s t : State} (hs : EngineInv s) (h : exec i s = .next t) : EngineInv t where
  phases     := everyCommandKeepsPhasesInRange i s t hs.phases h
  increments := hs.increments.exec h
  frames     := hs.frames.exec h
  taken      := hs.taken.exec h

/-- The words the host has still to deliver are no part of the invariant. -/
theorem EngineInv.setPending {s : State} (hs : EngineInv s) (p : List CmdWord) : EngineInv (s.setPending p) where
  phases     := hs.phases
  increments := hs.increments
  frames     := hs.frames
  taken      := hs.taken

/-- Settles O28: an idle step keeps the state, and any other executes one instruction. -/
theorem everyStepKeepsTheEngineInvariant : Obligations.EveryStepKeepsTheEngineInvariant := by
  intro s t hs h
  rcases step_cases h with ⟨-, rfl⟩ | ⟨cw, rest, -, hexec⟩
  · exact hs
  · exact (hs.setPending rest).exec hexec

/-- With every slot free and nothing emitted or taken there is nothing to hold, whatever the data fields. -/
theorem engineInv_of_free {s : State} (hfree : ∀ i, (s.voice i).active = false) (hout : s.out = [])
    (htaken : s.taken = 0) : EngineInv s where
  phases     := fun i hactive => by simp [hfree i] at hactive
  increments := fun i hactive => by simp [hfree i] at hactive
  frames     := by simp [FramesMono, hout]
  taken      := by simp [TakenWithin, htaken]

/-- Settles O29: every slot is free at reset, and `rst` leaves the reset state with other words pending. -/
theorem resetMeetsTheEngineInvariant : Obligations.ResetMeetsTheEngineInvariant := by
  have hreset : EngineInv State.reset := engineInv_of_free (fun i => by rw [State.voice_reset]; rfl) rfl rfl
  exact ⟨hreset, fun s => hreset.setPending s.pending⟩

end Sys2Proof.Machine
end

section
/-! PROOFS. Noninterference: two states that differ at most in the data of free slots run alike (10_state.md R37). -/

namespace Sys2Proof.Machine

/-- Two voices that agree but for the data of a free slot: the relation of `SameButFreeData` at one slot. -/
def Voice.SameUnlessFree (v w : Voice) : Prop := v.active = w.active ∧ (v.active = true → v = w)

theorem SameButFreeData.voice {s s' : State} (h : SameButFreeData s s') (i : Slot) :
    (s.voice i).SameUnlessFree (s'.voice i) := h.2.2.2.2 i

/-- Either the two voices are one, or both slots are free. -/
theorem Voice.SameUnlessFree.cases {v w : Voice} (h : v.SameUnlessFree w) :
    v = w ∨ v.active = false ∧ w.active = false := by
  obtain ⟨hactive, hdata⟩ := h
  cases hv : v.active with
  | true => exact .inl (hdata hv)
  | false => exact .inr ⟨rfl, hactive ▸ hv⟩

theorem Voice.SameUnlessFree.of_free {v w : Voice} (hv : v.active = false) (hw : w.active = false) :
    v.SameUnlessFree w := ⟨hv.trans hw.symm, fun h => absurd (hv.symm.trans h) Bool.false_ne_true⟩

theorem Voice.SameUnlessFree.refl (v : Voice) : v.SameUnlessFree v := ⟨rfl, fun _ => rfl⟩

/-- A free voice adds nothing to the mix, so stale data cannot enter it. -/
theorem Voice.SameUnlessFree.mixVoice_eq {v w : Voice} (h : v.SameUnlessFree w) (sin : F64 → F64) (f : Frame) :
    mixVoice sin f v = mixVoice sin f w := by
  rcases h.cases with rfl | ⟨hv, hw⟩
  · rfl
  · rw [mixVoice_of_free sin f v hv, mixVoice_of_free sin f w hw]

theorem Voice.SameUnlessFree.advanceVoice {v w : Voice} (h : v.SameUnlessFree w) :
    (advanceVoice v).SameUnlessFree (advanceVoice w) := by
  rcases h.cases with rfl | ⟨hv, hw⟩
  · exact .refl _
  · rwa [advanceVoice_of_free v hv, advanceVoice_of_free w hw]

section

variable {s s' : State}

/-- Writing related voices into one slot of related states. -/
theorem SameButFreeData.setVoice (h : SameButFreeData s s') (i : Slot) {v w : Voice} (hvw : v.SameUnlessFree w) :
    SameButFreeData (s.setVoice i v) (s'.setVoice i w) := by
  obtain ⟨hdi, hout, htaken, hpending, hvoice⟩ := h
  refine ⟨hdi, hout, htaken, hpending, fun j => ?_⟩
  rcases eq_or_ne j i with rfl | hji
  · rw [State.voice_setVoice_same, State.voice_setVoice_same]
    exact hvw
  · rw [State.voice_setVoice_ne s v hji, State.voice_setVoice_ne s' w hji]
    exact hvoice j

/-- The scan for a free slot reads `active` bits alone. -/
theorem SameButFreeData.firstFree_eq (h : SameButFreeData s s') : firstFree s = firstFree s' := by
  unfold firstFree
  congr 1
  funext i
  rw [(h.voice i).1]

/-- The scan for a match reads the frequencies of active slots alone. -/
theorem SameButFreeData.firstMatch_eq (h : SameButFreeData s s') (f : F64) : firstMatch s f = firstMatch s' f := by
  unfold firstMatch
  congr 1
  funext i
  rcases (h.voice i).cases with hv | ⟨hv, hw⟩
  · rw [hv]
  · rw [hv, hw, Bool.false_and, Bool.false_and]

theorem SameButFreeData.allocate (h : SameButFreeData s s') (f a : F64) :
    SameButFreeData (allocate f a s).2 (allocate f a s').2 := by
  rcases allocate_cases f a s with ⟨hs, he⟩ | ⟨i, hs, he⟩ <;>
    rw [he, Machine.allocate, ← h.firstFree_eq, hs]
  · exact h
  · rw [h.1]
    exact h.setVoice i (.refl _)

theorem SameButFreeData.release (h : SameButFreeData s s') (f : F64) :
    SameButFreeData (release f s).2 (release f s').2 := by
  rcases release_cases f s with ⟨hs, he⟩ | ⟨i, hs, he⟩ <;>
    rw [he, Machine.release, ← h.firstMatch_eq f, hs]
  · exact h
  · exact h.setVoice i (.of_free rfl rfl)

theorem SameButFreeData.setDefaultInstrument (h : SameButFreeData s s') (k : Instrument) :
    SameButFreeData (setDefaultInstrument k s) (setDefaultInstrument k s') := ⟨rfl, h.2⟩

/-- RENDER emits the same frame from both states, and leaves both with the same free slots. -/
theorem SameButFreeData.renderFrame (h : SameButFreeData s s') (sin : F64 → F64) :
    SameButFreeData (renderFrame sin s) (renderFrame sin s') := by
  have hmix : (fun f i => mixVoice sin f (s.voice i)) = fun f i => mixVoice sin f (s'.voice i) := by
    funext f i
    exact (h.voice i).mixVoice_eq sin f
  have hvoice (i : Slot) :
        ((Machine.renderFrame sin s).voice i).SameUnlessFree ((Machine.renderFrame sin s').voice i) := by
    rw [renderFrame_voice, renderFrame_voice]
    exact (h.voice i).advanceVoice
  obtain ⟨hdi, hout, htaken, hpending, -⟩ := h
  exact ⟨by simpa, by rw [renderFrame_out, renderFrame_out, hout, hmix], by simpa, by simpa, hvoice⟩

/-- Every instruction has a next state (60_exceptions.md R125). -/
theorem exists_exec_eq_next (i : Instr) (s : State) : ∃ t, exec i s = .next t := by
  cases i <;> exact ⟨_, rfl⟩

/-- One instruction from related states answers related states: the step of the two runs. -/
theorem SameButFreeData.exec (h : SameButFreeData s s') {i : Instr} {t : State} (hs : exec i s = .next t) :
    ∃ t', exec i s' = .next t' ∧ SameButFreeData t t' := by
  rcases exec_cases hs with ⟨hi, rfl⟩ | ⟨f, a, rfl, rfl⟩ | ⟨f, rfl, rfl⟩ | ⟨k, hi, rfl⟩ | ⟨rfl, rfl⟩
  · exact ⟨s', exec_of_isNop hi s', h⟩
  · exact ⟨_, rfl, h.allocate f a⟩
  · exact ⟨_, rfl, h.release f⟩
  · refine ⟨_, ?_, h.setDefaultInstrument k⟩
    rcases hi with ⟨rfl, rfl⟩ | ⟨rfl, rfl⟩ | ⟨rfl, rfl⟩ <;> rfl
  · exact ⟨_, rfl, h.renderFrame sinUnit⟩

theorem runWords_cons_of_next {cw : CmdWord} {t : State} (h : stepWord cw s = .next t) (rest : List CmdWord) :
    runWords (cw :: rest) s = runWords rest t := by
  rw [runWords, h]

/-- Related states stay related along a command sequence. -/
theorem SameButFreeData.runWords (words : List CmdWord) (h : SameButFreeData s s') :
    ∃ t t', runWords words s = .next t ∧ runWords words s' = .next t' ∧ SameButFreeData t t' := by
  induction words generalizing s s' with
  | nil => exact ⟨s, s', rfl, rfl, h⟩
  | cons cw rest ih =>
    obtain ⟨u, hu⟩ := exists_exec_eq_next (decode cw) s
    obtain ⟨u', hu', huu'⟩ := h.exec hu
    obtain ⟨t, t', ht, ht', htt'⟩ := ih huu'
    exact ⟨t, t', (runWords_cons_of_next hu rest).trans ht, (runWords_cons_of_next hu' rest).trans ht', htt'⟩

end

/-- Settles O35: the relation is kept by every run, and related states have the same OUT. -/
theorem dataOfFreeSlotsIsUnobservable : Obligations.DataOfFreeSlotsIsUnobservable := by
  intro words s s' h
  obtain ⟨t, t', ht, ht', htt'⟩ := h.runWords words
  exact ⟨t, t', ht, ht', htt', congrArg (List.map frameWord) htt'.2.1⟩

end Sys2Proof.Machine
end

section
/-! PROOFS. A run as the fold of Step over the command sequence, and the frames it appends to OUT (20_memory.md R46,
R48). -/

namespace Sys2Proof.Machine

/-! ### Runs compose -/

/-- Every command sequence runs to its end (60_exceptions.md R125). -/
theorem exists_runWords_eq_next (words : List CmdWord) (s : State) : ∃ t, runWords words s = .next t := by
  induction words generalizing s with
  | nil => exact ⟨s, rfl⟩
  | cons cw rest ih =>
    obtain ⟨u, hu⟩ := exists_exec_eq_next (decode cw) s
    obtain ⟨t, ht⟩ := ih u
    exact ⟨t, (runWords_cons_of_next hu rest).trans ht⟩

/-- A run of a word and more words passes through the state the first word leaves. -/
theorem runWords_cons_eq_next {cw : CmdWord} {rest : List CmdWord} {s t : State}
    (h : runWords (cw :: rest) s = .next t) : ∃ u, stepWord cw s = .next u ∧ runWords rest u = .next t := by
  obtain ⟨u, hu⟩ := exists_exec_eq_next (decode cw) s
  exact ⟨u, hu, (runWords_cons_of_next hu rest).symm.trans h⟩

theorem runWords_append_of_next {before : List CmdWord} {s t : State} (h : runWords before s = .next t)
    (after : List CmdWord) : runWords (before ++ after) s = runWords after t := by
  induction before generalizing s with
  | nil => rw [Host.Outcome.next.inj h, List.nil_append]
  | cons cw rest ih =>
    obtain ⟨u, hu, hrest⟩ := runWords_cons_eq_next h
    exact (runWords_cons_of_next hu (rest ++ after)).trans (ih hrest)

/-! ### Stepping through the queue -/

/-- What the host has still to deliver changes no instruction's meaning (`exec_ports`, the sink's count kept). -/
theorem exec_setPending {i : Instr} {s t : State} (h : exec i s = .next t) (p : List CmdWord) :
    exec i (s.setPending p) = .next (t.setPending p) := by
  have hs : s.setTaken t.taken = s := congrArg s.setTaken (exec_taken h)
  have hports := exec_ports h t.taken p
  rw [hs] at hports
  exact hports

/-- A step of the machine is Step of the word at the head of the queue. -/
theorem step_setPending_cons {cw : CmdWord} {s t : State} (h : stepWord cw s = .next t) (rest : List CmdWord) :
    step (s.setPending (cw :: rest)) = .next (t.setPending rest) := exec_setPending h rest

theorem core_run_succ_of_next {M : Host.Core} {s t : M.State} (h : M.step s = .next t) (k : Nat) :
    M.run (k + 1) s = M.run k t := by
  rw [Host.Core.run, h]

/-- The machine, stepped once for each word, does the run of the words, whatever stands behind them in the queue. -/
theorem core_run_of_runWords {words : List CmdWord} {s t : State} (h : runWords words s = .next t)
    (rest : List CmdWord) :
    Host.Core.run Sys2Proof.core words.length (s.setPending (words ++ rest)) = .next (t.setPending rest) := by
  induction words generalizing s with
  | nil =>
    rw [Host.Outcome.next.inj h]
    rfl
  | cons cw words ih =>
    obtain ⟨u, hu, hwords⟩ := runWords_cons_eq_next h
    have hstep : Sys2Proof.core.step (s.setPending (cw :: (words ++ rest))) = .next (u.setPending (words ++ rest)) :=
      step_setPending_cons hu (words ++ rest)
    exact (core_run_succ_of_next hstep words.length).trans (ih hwords)

/-- Settles O32: the run exists, and the machine's steps follow it word by word. -/
theorem steppingTheQueueIsTheFoldOfStep : Obligations.SteppingTheQueueIsTheFoldOfStep := by
  intro words rest s
  obtain ⟨t, ht⟩ := exists_runWords_eq_next words s
  exact ⟨t, ht, core_run_of_runWords ht rest⟩

/-! ### The frames a run appends -/

/-- RENDER appends one frame (41_render_mix.md R88). -/
theorem stepWord_out_of_render {cw : CmdWord} {s t : State} (hrender : decode cw = .render)
    (h : stepWord cw s = .next t) : ∃ f, t.out = s.out ++ [f] := by
  rw [stepWord, hrender] at h
  obtain rfl := Host.Outcome.next.inj h
  exact ⟨_, renderFrame_out sinUnit s⟩

/-- No command but RENDER writes OUT. -/
theorem stepWord_out_of_ne_render {cw : CmdWord} {s t : State} (hne : decode cw ≠ .render)
    (h : stepWord cw s = .next t) : t.out = s.out := (exec_out_cases h).resolve_right fun hrender => hne hrender.1

theorem renderCount_cons_of_render {cw : CmdWord} (h : decode cw = .render) (rest : List CmdWord) :
    renderCount (cw :: rest) = renderCount rest + 1 := List.countP_cons_of_pos (by simp [h])

theorem renderCount_cons_of_ne_render {cw : CmdWord} (h : decode cw ≠ .render) (rest : List CmdWord) :
    renderCount (cw :: rest) = renderCount rest := List.countP_cons_of_neg (by simpa using h)

/-- A run appends as many frames to OUT as it has RENDERs, and leaves those already there in place. -/
theorem runWords_out {words : List CmdWord} {s t : State} (h : runWords words s = .next t) :
    ∃ frames, t.out = s.out ++ frames ∧ frames.length = renderCount words := by
  induction words generalizing s with
  | nil => exact ⟨[], by rw [Host.Outcome.next.inj h, List.append_nil], rfl⟩
  | cons cw rest ih =>
    obtain ⟨u, hu, hrest⟩ := runWords_cons_eq_next h
    obtain ⟨frames, ht, hlen⟩ := ih hrest
    by_cases hrender : decode cw = .render
    · obtain ⟨f, hf⟩ := stepWord_out_of_render hrender hu
      exact ⟨f :: frames, by simp [ht, hf], by simp [renderCount_cons_of_render hrender, hlen]⟩
    · exact ⟨frames, by rw [ht, stepWord_out_of_ne_render hrender hu],
        by rw [renderCount_cons_of_ne_render hrender, hlen]⟩

theorem runWords_out_length {words : List CmdWord} {s t : State} (h : runWords words s = .next t) :
    t.out.length = s.out.length + renderCount words := by
  obtain ⟨frames, ht, hlen⟩ := runWords_out h
  rw [ht, List.length_append, hlen]

/-- Settles O33: the frame lands at the length OUT has before it, and the words after it only append. -/
theorem kthRenderGivesTheKthFrame : Obligations.KthRenderGivesTheKthFrame := by
  intro before after cw s hrender
  obtain ⟨t, ht⟩ := exists_runWords_eq_next before s
  obtain ⟨u, hu⟩ := exists_exec_eq_next (decode cw) t
  obtain ⟨f, hf⟩ := stepWord_out_of_render hrender hu
  obtain ⟨v, hv⟩ := exists_runWords_eq_next after u
  have hall : runWords (before ++ cw :: after) s = .next v :=
    (runWords_append_of_next ht _).trans ((runWords_cons_of_next hu after).trans hv)
  obtain ⟨frames, hvout, -⟩ := runWords_out hv
  refine ⟨t, u, v, f, ht, hu, hf, hall, ?_, runWords_out_length hall⟩
  rw [← runWords_out_length ht, hvout, hf]
  simp

end Sys2Proof.Machine
end

section
/-! PROOFS. The command encoding: what a word decodes to, by its opcode, and what an encoding decodes to
(30_encoding.md sections 1 and 2). -/

namespace Sys2Proof

open Machine

/-! ### The fields of a word -/

/-- A word is its three fields put together (30_encoding.md R53). -/
theorem mkCmdWord_fields (cw : CmdWord) : mkCmdWord (cwOp cw) (cwA cw) (cwB cw) = cw := by
  rw [mkCmdWord, cwA, cwB, BitVec.extractLsb'_append_extractLsb'_eq_extractLsb' (by norm_num)]
  exact BitVec.extractLsb'_append_extractLsb'

/-- The six cases of the decoder: five opcodes with a clause of their own, and the reserved ones. -/
theorem opcode_cases (op : BitVec 8) :
    op = 0x00 ∨ op = 0x01 ∨ op = 0x02 ∨ op = 0x03 ∨ op = 0x04 ∨ 0x05 ≤ op.toNat := by
  bv_omega

/-! ### `decode`, one equation for each case of the opcode -/

section

variable {cw : CmdWord}

theorem decode_of_nop (h : cwOp cw = 0x00) : decode cw = .nop := by
  rw [decode, if_pos h]

theorem decode_of_noteOn (h : cwOp cw = 0x01) : decode cw = .noteOn (cwA cw) (cwB cw) := by
  simp [decode, h]

theorem decode_of_noteOff (h : cwOp cw = 0x02) : decode cw = .noteOff (cwA cw) := by
  simp [decode, h]

theorem decode_of_setInstrument (h : cwOp cw = 0x03) : decode cw = decodeSetInstrument (cwCode cw) := by
  simp [decode, h]

theorem decode_of_render (h : cwOp cw = 0x04) : decode cw = .render := by
  simp [decode, h]

theorem decode_of_reserved (h : 0x05 ≤ (cwOp cw).toNat) : decode cw = decodeReserved (cwOp cw) := by
  have hne (k : BitVec 8) (hk : k.toNat < 0x05) : cwOp cw ≠ k := by
    rintro rfl
    omega
  rw [decode, if_neg (hne 0x00 (by decide)), if_neg (hne 0x01 (by decide)), if_neg (hne 0x02 (by decide)),
    if_neg (hne 0x03 (by decide)), if_neg (hne 0x04 (by decide))]

end

/-! ### What the reserved opcodes and the codes of SET_INSTRUMENT are read as -/

section

variable {op : BitVec 8}

/-- A reserved opcode is read as a well-formed NOP row that keeps it (30_encoding.md R60). -/
theorem decodeReserved_spec (h : 0x05 ≤ op.toNat) :
    (decodeReserved op).isNop = true ∧ (decodeReserved op).wellFormed = true ∧
      encode (decodeReserved op) = mkCmdWord op 0 0 := by
  unfold decodeReserved
  split
  case isTrue hlt =>
    have hop : op = 0x05 := by bv_omega
    rw [hop]
    exact ⟨rfl, rfl, rfl⟩
  case isFalse hge =>
    repeat' split
    all_goals exact ⟨rfl, decide_eq_true (by omega), rfl⟩

theorem isNop_decodeReserved (h : 0x05 ≤ op.toNat) : (decodeReserved op).isNop = true := by
  obtain ⟨hnop, -, -⟩ := decodeReserved_spec h
  exact hnop

theorem wellFormed_decodeReserved (h : 0x05 ≤ op.toNat) : (decodeReserved op).wellFormed = true := by
  obtain ⟨-, hwf, -⟩ := decodeReserved_spec h
  exact hwf

theorem encode_decodeReserved (h : 0x05 ≤ op.toNat) : encode (decodeReserved op) = mkCmdWord op 0 0 := by
  obtain ⟨-, -, hencode⟩ := decodeReserved_spec h
  exact hencode

end

theorem wellFormed_decodeSetInstrument (k : BitVec 2) : (decodeSetInstrument k).wellFormed = true := by
  revert k
  decide

/-- The row read from a code, code 3 included, is written back with that code (30_encoding.md R57, R61). -/
theorem encode_decodeSetInstrument (k : BitVec 2) :
    encode (decodeSetInstrument k) = mkCmdWord 0x03 0 (k.setWidth 64) := by
  revert k
  decide

theorem cwCode_encode_decodeSetInstrument (k : BitVec 2) : cwCode (encode (decodeSetInstrument k)) = k := by
  rw [encode_decodeSetInstrument, cwCode_mkCmdWord]
  revert k
  decide

/-! ### `decode` of a word put together from its fields -/

theorem decode_mkCmdWord_nop (a b : F64) : decode (mkCmdWord 0x00 a b) = .nop :=
  decode_of_nop (cwOp_mkCmdWord 0x00 a b)

theorem decode_mkCmdWord_noteOn (f a : F64) : decode (mkCmdWord 0x01 f a) = .noteOn f a := by
  rw [decode_of_noteOn (cwOp_mkCmdWord 0x01 f a), cwA_mkCmdWord, cwB_mkCmdWord]

theorem decode_mkCmdWord_noteOff (f b : F64) : decode (mkCmdWord 0x02 f b) = .noteOff f := by
  rw [decode_of_noteOff (cwOp_mkCmdWord 0x02 f b), cwA_mkCmdWord]

theorem decode_mkCmdWord_setInstrument (a b : F64) :
    decode (mkCmdWord 0x03 a b) = decodeSetInstrument (b.extractLsb' 0 2) := by
  rw [decode_of_setInstrument (cwOp_mkCmdWord 0x03 a b), cwCode_mkCmdWord]

theorem decode_mkCmdWord_render (a b : F64) : decode (mkCmdWord 0x04 a b) = .render :=
  decode_of_render (cwOp_mkCmdWord 0x04 a b)

theorem decode_mkCmdWord_reserved {op : BitVec 8} (h : 0x05 ≤ op.toNat) (a b : F64) :
    decode (mkCmdWord op a b) = decodeReserved op := by
  rw [decode_of_reserved (by rwa [cwOp_mkCmdWord]), cwOp_mkCmdWord]

/-- Decode undoes encode on every well-formed instruction: every used field comes back, and a reserved row's opcode
lies in the range the decoder reads as that row. -/
theorem decode_encode {i : Instr} (h : i.wellFormed = true) : decode (encode i) = i := by
  cases i with
  | nop => exact decode_mkCmdWord_nop 0 0
  | noteOn f a => exact decode_mkCmdWord_noteOn f a
  | noteOff f => exact decode_mkCmdWord_noteOff f 0
  | setInstrumentPiano => exact decode_mkCmdWord_setInstrument 0 0
  | setInstrumentViolin => exact decode_mkCmdWord_setInstrument 0 1
  | setInstrumentTrumpet => exact decode_mkCmdWord_setInstrument 0 2
  | nopMalformedSetInstrument => exact decode_mkCmdWord_setInstrument 0 3
  | render => exact decode_mkCmdWord_render 0 0
  | nopReserved05 => exact decode_mkCmdWord_reserved (op := 0x05) (by decide) 0 0
  | nopReserved06 op =>
    have hop : 0x06 ≤ op.toNat ∧ op.toNat ≤ 0x07 := of_decide_eq_true h
    rw [encode, decode_mkCmdWord_reserved (by omega), decodeReserved, if_neg, if_pos] <;> omega
  | nopReserved08 op =>
    have hop : 0x08 ≤ op.toNat ∧ op.toNat ≤ 0x0F := of_decide_eq_true h
    rw [encode, decode_mkCmdWord_reserved (by omega), decodeReserved, if_neg, if_neg, if_pos] <;> omega
  | nopReserved10 op =>
    have hop : 0x10 ≤ op.toNat ∧ op.toNat ≤ 0x1F := of_decide_eq_true h
    rw [encode, decode_mkCmdWord_reserved (by omega), decodeReserved, if_neg, if_neg, if_neg, if_pos] <;> omega
  | nopReserved20 op =>
    have hop : 0x20 ≤ op.toNat ∧ op.toNat ≤ 0x3F := of_decide_eq_true h
    rw [encode, decode_mkCmdWord_reserved (by omega), decodeReserved, if_neg, if_neg, if_neg, if_neg, if_pos] <;> omega
  | nopReserved40 op =>
    have hop : 0x40 ≤ op.toNat ∧ op.toNat ≤ 0x7F := of_decide_eq_true h
    rw [encode, decode_mkCmdWord_reserved (by omega), decodeReserved, if_neg, if_neg, if_neg, if_neg, if_neg,
      if_pos] <;> omega
  | nopReserved80 op =>
    have hop : 0x80 ≤ op.toNat := of_decide_eq_true h
    rw [encode, decode_mkCmdWord_reserved (by omega), decodeReserved, if_neg, if_neg, if_neg, if_neg, if_neg,
      if_neg] <;> omega

/-- Settles O3: `decode_encode`. -/
theorem encodeThenDecodeGivesTheInstructionBack : Obligations.EncodeThenDecodeGivesTheInstructionBack :=
  fun _ h => decode_encode h

/-- Every word that is none of NOTE_ON, NOTE_OFF, RENDER and a SET_INSTRUMENT with a code is read as a NOP row
(30_encoding.md R63, its last clause). -/
theorem isNop_decode {cw : CmdWord} (hon : cwOp cw ≠ 0x01) (hoff : cwOp cw ≠ 0x02) (hrender : cwOp cw ≠ 0x04)
    (hset : cwOp cw = 0x03 → cwCode cw = 3) : (decode cw).isNop = true := by
  rcases opcode_cases (cwOp cw) with h | h | h | h | h | h
  · rw [decode_of_nop h]
    rfl
  · exact absurd h hon
  · exact absurd h hoff
  · rw [decode_of_setInstrument h, hset h]
    rfl
  · exact absurd h hrender
  · rw [decode_of_reserved h]
    exact isNop_decodeReserved h

/-- Settles O1: the rule's slices are the model's fields, so each clause is the decoder's equation for its opcode. -/
theorem decodeIsTheRulesDecode : Obligations.DecodeIsTheRulesDecode := by
  intro cw
  have hset {k : BitVec 2} (hop : cwOp cw = 0x03) (hk : cwCode cw = k) : decode cw = decodeSetInstrument k := by
    rw [decode_of_setInstrument hop, hk]
  exact ⟨decode_of_noteOn, decode_of_noteOff, hset, hset, hset, decode_of_render, isNop_decode,
    fun s => ⟨rfl, exists_exec_eq_next (decode cw) s⟩⟩

/-- What a word is read as is well-formed. -/
theorem wellFormed_decode (cw : CmdWord) : (decode cw).wellFormed = true := by
  rcases opcode_cases (cwOp cw) with h | h | h | h | h | h
  · rw [decode_of_nop h]
    rfl
  · rw [decode_of_noteOn h]
    rfl
  · rw [decode_of_noteOff h]
    rfl
  · rw [decode_of_setInstrument h]
    exact wellFormed_decodeSetInstrument _
  · rw [decode_of_render h]
    rfl
  · rw [decode_of_reserved h]
    exact wellFormed_decodeReserved h

theorem cwOp_encode_decode (cw : CmdWord) : cwOp (encode (decode cw)) = cwOp cw := by
  rcases opcode_cases (cwOp cw) with h | h | h | h | h | h
  · rw [decode_of_nop h, encode, cwOp_mkCmdWord, h]
  · rw [decode_of_noteOn h, encode, cwOp_mkCmdWord, h]
  · rw [decode_of_noteOff h, encode, cwOp_mkCmdWord, h]
  · rw [decode_of_setInstrument h, encode_decodeSetInstrument, cwOp_mkCmdWord, h]
  · rw [decode_of_render h, encode, cwOp_mkCmdWord, h]
  · rw [decode_of_reserved h, encode_decodeReserved h, cwOp_mkCmdWord]

/-- Settles O4: the opcode in every case, and the operands each command uses. -/
theorem decodeThenEncodeKeepsTheUsedFields : Obligations.DecodeThenEncodeKeepsTheUsedFields := by
  intro cw
  refine ⟨wellFormed_decode cw, cwOp_encode_decode cw, fun hon => ?_, fun hoff => ?_, fun hset => ?_⟩
  · rw [decode_of_noteOn hon, encode, ← hon, mkCmdWord_fields]
  · rw [decode_of_noteOff hoff, encode, cwA_mkCmdWord]
  · rw [decode_of_setInstrument hset, cwCode_encode_decodeSetInstrument]

/-- Settles O5: the equation for a word's opcode names the fields its command reads, and no other. -/
theorem ignoredFieldsDoNotChangeTheCommand : Obligations.IgnoredFieldsDoNotChangeTheCommand := by
  intro op a b a' b'
  refine ⟨?_, ?_, fun hon hoff hset => ?_⟩
  · rintro rfl
    rw [decode_mkCmdWord_noteOff, decode_mkCmdWord_noteOff]
  · rintro rfl hcode
    rw [decode_mkCmdWord_setInstrument, decode_mkCmdWord_setInstrument, hcode]
  · rcases opcode_cases op with rfl | h | h | h | rfl | h
    · rw [decode_mkCmdWord_nop, decode_mkCmdWord_nop]
    · exact absurd h hon
    · exact absurd h hoff
    · exact absurd h hset
    · rw [decode_mkCmdWord_render, decode_mkCmdWord_render]
    · rw [decode_mkCmdWord_reserved h, decode_mkCmdWord_reserved h]

/-- Settles O6: each word is a literal. -/
theorem writtenOutWordsDecode : Obligations.WrittenOutWordsDecode := by
  unfold Obligations.WrittenOutWordsDecode
  decide

/-- Settles O7: both kinds of word are read as a NOP row. -/
theorem reservedAndMalformedWordsChangeNothing : Obligations.ReservedAndMalformedWordsChangeNothing := by
  intro cw s
  refine ⟨fun (hop : 0x05 ≤ (cwOp cw).toNat) => exec_of_isNop ?_ s,
    fun (hop : cwOp cw = 0x03) (hcode : cwCode cw = 3) => exec_of_isNop ?_ s⟩
  · rw [decode_of_reserved hop]
    exact isNop_decodeReserved hop
  · rw [decode_of_setInstrument hop, hcode]
    rfl

/-! ### The step that runs a decoded word -/

theorem step_of_pending_cons {s : State} {cw : CmdWord} {rest : List CmdWord} (h : s.pending = cw :: rest) :
    step s = exec (decode cw) (s.setPending rest) := by
  rw [step, h]

/-- With no word to execute the engine is idle (60_exceptions.md R139). -/
theorem step_of_pending_nil {s : State} (h : s.pending = []) : step s = .next s := by
  rw [step, h]

/-- Every step has a next state (60_exceptions.md R125). -/
theorem exists_step_eq_next (s : State) : ∃ t, step s = .next t := by
  cases h : s.pending with
  | nil => exact ⟨s, step_of_pending_nil h⟩
  | cons cw rest =>
    rw [step_of_pending_cons h]
    exact exists_exec_eq_next (decode cw) _

/-- A 136-bit number is the word it writes down. -/
theorem tableWord_toNat (cw : CmdWord) : tableWord 136 cw.toNat = cw := by
  rw [tableWord, Nat.mod_eq_of_lt cw.isLt, BitVec.ofNat_toNat, BitVec.setWidth_eq]

/-- Settles O9: a step takes the word at the head of the queue, and a word put first is taken off again. -/
theorem stepRunsTheDecodedInstruction : Obligations.StepRunsTheDecodedInstruction := by
  refine ⟨fun s cw rest => step_of_pending_cons, fun s => step_of_pending_nil, fun s i hi => ?_⟩
  have hpending : (s.withFetchWord 136 (encode i).toNat).pending = encode i :: s.pending := by
    rw [State.withFetchWord, State.pending_setPending, tableWord_toNat]
  rw [step_of_pending_cons hpending, decode_encode hi]
  rfl

end Sys2Proof
end

section
/-! PROOFS. The assembler: its words are encodings of well-formed instructions, its literals nearest patterns
(30_encoding.md section 5). -/

namespace Sys2Proof.Machine

/-- Settles O57: each line but `.word` is a list of encodings, one, or n of RENDER. -/
theorem assembledLinesDecodeToTheirCommands : Obligations.AssembledLinesDecodeToTheirCommands := by
  have hline {l : AsmLine} {i : Instr} (hl : assembleLine l = [encode i]) (hi : i.wellFormed = true) :
      (assembleLine l).map decode = [i] := by
    rw [hl, List.map_singleton, decode_encode hi]
  have hnoteOffB (f : Literal) : (assembleLine (.noteOff f)).map cwB = [0] := by
    rw [assembleLine, List.map_singleton, cwB_mkCmdWord]
  have hrender : encode .render = 0x0400000000000000000000000000000000 := by decide
  have hmany (n : Nat) : assembleLine (.renderMany n) = List.replicate n (encode .render) := rfl
  refine ⟨fun f a => ⟨hline rfl rfl, hline rfl rfl, hnoteOffB f⟩, ⟨by decide, hline rfl rfl⟩,
    ⟨by decide, hline rfl rfl⟩, ⟨by decide, hline rfl rfl⟩, ⟨by decide, hline rfl rfl⟩,
    ⟨by decide, hline rfl rfl⟩, fun cw => rfl, fun n => ⟨?_, ?_⟩, rfl⟩
  · rw [hmany, hrender]
  · rw [hmany, List.map_replicate, decode_encode rfl]

/-- `nearestEven_round` at one sign. The value stays open here, so that elaboration never computes with 2^1074. -/
theorem nearestEven_round_nonneg (num den : Nat) (hd : 0 < den) :
    NearestEven num den (fpPack false (roundMag num den)) := nearestEven_round false num den hd

theorem nearestEven_round_neg (num den : Nat) (hd : 0 < den) :
    NearestEven (-num) den (fpPack true (roundMag num den)) := nearestEven_round true num den hd

theorem cast_mul_pow2 (m n : Nat) : ((m * pow2 n : Nat) : Int) = m * 2 ^ n := by
  rw [pow2_eq]
  push_cast
  rfl

/-- Settles O58: a decimal is packed from its sign and its rounded magnitude, `digits x 2^1074 / 10^places` units. -/
theorem literalIsTheNearestPattern : Obligations.LiteralIsTheNearestPattern := by
  refine ⟨fun digits places => ?_, fun w => rfl⟩
  have hd : 0 < 10 ^ places := by positivity
  rw [← cast_mul_pow2]
  exact ⟨nearestEven_round_nonneg _ _ hd, nearestEven_round_neg _ _ hd⟩

end Sys2Proof.Machine
end

section
/-! PROOFS. The two ports: the frames the sink takes, and that no value depends on the handshakes (30_encoding.md R64 to
R66). -/

namespace Sys2Proof.Machine

/-! ### The sink -/

theorem sinkTake_of_getElem? {s : State} {f : Frame} (h : s.out[s.taken]? = some f) :
    sinkTake s = some (frameWord f, s.setTaken (s.taken + 1)) := by
  rw [sinkTake, h]

theorem sinkTake_of_length_le {s : State} (h : s.out.length ≤ s.taken) : sinkTake s = none := by
  rw [sinkTake, List.getElem?_eq_none h]

/-- Settles O37: the sink reads OUT at the count of frames taken, and moves the count alone. -/
theorem sinkTakesTheFramesInOrder : Obligations.SinkTakesTheFramesInOrder := by
  constructor
  · intro s f h
    obtain ⟨hlt, -⟩ := List.getElem?_eq_some_iff.mp h
    have hobserve : (observe s)[s.taken]? = some (frameWord f) := by
      rw [observe, List.getElem?_map, h, Option.map_some]
    exact ⟨decide_eq_true hlt, frameWord f, s.setTaken (s.taken + 1), sinkTake_of_getElem? h,
      BitVec.extractLsb'_append_eq_left, BitVec.extractLsb'_append_eq_right, hobserve, rfl, rfl, rfl, rfl,
      fun _ => rfl⟩
  · intro s h
    exact ⟨decide_eq_false (not_lt.mpr h), sinkTake_of_length_le h⟩

/-! ### The ports and the fold of Step -/

/-- `t` is where the fold of Step over the first words of `s` leads, those words accepted and the others still to
deliver; only the sink's count is its own, and within OUT. -/
def FollowsFold (s t : State) : Prop :=
  ∃ k u, runWords (s.pending.take k) s = .next u ∧
    t = (u.setTaken t.taken).setPending (s.pending.drop k) ∧ TakenWithin t

theorem FollowsFold.refl {s : State} (h : TakenWithin s) : FollowsFold s s := ⟨0, s, rfl, rfl, h⟩

theorem TakenWithin.sinkAccept {t : State} (h : TakenWithin t) (r : Bool) : TakenWithin (sinkAccept r t) := by
  unfold TakenWithin at h ⊢
  rw [taken_sinkAccept, out_sinkAccept]
  split <;> omega

/-- The sink's side of a cycle moves the sink's count alone. -/
theorem FollowsFold.sinkAccept {s t : State} (h : FollowsFold s t) (r : Bool) : FollowsFold s (sinkAccept r t) := by
  obtain ⟨k, u, hu, ht, hwithin⟩ := h
  refine ⟨k, u, hu, ?_, hwithin.sinkAccept r⟩
  rw [taken_sinkAccept, sinkAccept_eq]
  generalize (if r = true ∧ t.taken < t.out.length then t.taken + 1 else t.taken) = n
  rw [ht]
  rfl

/-- A run of words and one more word. -/
theorem runWords_concat {words : List CmdWord} {s u v : State} {cw : CmdWord} (hu : runWords words s = .next u)
    (hv : stepWord cw u = .next v) : runWords (words ++ [cw]) s = .next v :=
  (runWords_append_of_next hu [cw]).trans (runWords_cons_of_next hv [])

/-- A step from such a state accepts the next word, whose meaning the sink's count does not enter (`exec_ports`). -/
theorem FollowsFold.step {s t t' : State} (h : FollowsFold s t) (hstep : step t = .next t') : FollowsFold s t' := by
  rcases step_cases hstep with ⟨-, rfl⟩ | ⟨cw, rest, hpending, hexec⟩
  · exact h
  · obtain ⟨k, u, hu, ht, hwithin⟩ := h
    have hdrop : s.pending.drop k = cw :: rest := by rw [← hpending, ht, State.pending_setPending]
    obtain ⟨v, hv⟩ := exists_exec_eq_next (decode cw) u
    have hports : exec (decode cw) (t.setPending rest) = .next ((v.setTaken t.taken).setPending rest) := by
      rw [ht]
      exact exec_ports hv t.taken rest
    obtain rfl := Host.Outcome.next.inj (hexec.symm.trans hports)
    have htake : s.pending.take (k + 1) = s.pending.take k ++ [cw] := by
      rw [List.take_add, hdrop]
      rfl
    have hrest : s.pending.drop (k + 1) = rest := by
      rw [← List.drop_drop, hdrop]
      rfl
    have hwithin' : TakenWithin (t.setPending rest) := hwithin
    exact ⟨k + 1, v, htake ▸ runWords_concat hu hv, by rw [hrest]; rfl, hwithin'.exec hexec⟩

/-- One cycle of the ports: the sink's side, and a step or none. -/
theorem FollowsFold.portCycle {s t : State} (h : FollowsFold s t) (r : Bool) :
    ∃ t', portCycle r t = .next t' ∧ FollowsFold s t' := by
  rcases portCycle_cases r t with ⟨-, hcycle⟩ | ⟨-, hcycle⟩ <;> rw [hcycle]
  · exact ⟨_, rfl, h.sinkAccept r⟩
  · obtain ⟨t', ht'⟩ := exists_step_eq_next (Machine.sinkAccept r t)
    exact ⟨t', ht', (h.sinkAccept r).step ht'⟩

theorem portRun_succ_of_next {frameReady : Nat → Bool} {n : Nat} {s t : State}
    (h : portRun frameReady n s = .next t) : portRun frameReady (n + 1) s = portCycle (frameReady n) t := by
  rw [portRun, h]

/-- Settles O40: at the start no word is accepted, and every cycle keeps `FollowsFold`. -/
theorem thePortsChangeNoValue : Obligations.ThePortsChangeNoValue := by
  intro frameReady n s hs
  have hrun : ∃ t, portRun frameReady n s = .next t ∧ FollowsFold s t := by
    induction n with
    | zero => exact ⟨s, rfl, .refl hs⟩
    | succ n ih =>
      obtain ⟨t, ht, hfollows⟩ := ih
      rw [portRun_succ_of_next ht]
      exact hfollows.portCycle (frameReady n)
  obtain ⟨t, ht, k, u, hu, hfold, hwithin⟩ := hrun
  exact ⟨k, t, u, ht, hu, hfold, hwithin⟩

end Sys2Proof.Machine
end

section
/-! PROOFS. Voice control: what NOTE_ON, NOTE_OFF, SET_INSTRUMENT and NOP do to the pool (40_voice_control.md). -/

namespace Sys2Proof.Machine

/-! ### One equation for each answer of the two scans -/

section

variable {s : State} {i : Slot}

theorem exec_noteOn_of_firstFree (h : firstFree s = some i) (f a : F64) :
    exec (.noteOn f a) s = .next (s.setVoice i (newVoice f a s.di)) := by
  rw [exec, execNoteOn, allocate, h]

/-- With no slot free the note is dropped (60_exceptions.md R126). -/
theorem exec_noteOn_of_full (h : ∀ i, (s.voice i).active = true) (f a : F64) : exec (.noteOn f a) s = .next s := by
  rw [exec, execNoteOn, allocate, (firstFree_eq_none s).mpr h]

theorem exec_noteOff_of_firstMatch {f : F64} (h : firstMatch s f = some i) :
    exec (.noteOff f) s = .next (s.setVoice i { s.voice i with active := false }) := by
  rw [exec, execNoteOff, release, h]

/-- With no match nothing is released (60_exceptions.md R127). -/
theorem exec_noteOff_of_no_match {f : F64} (h : ∀ i, (s.voice i).active = true → feq (s.voice i).frequency f = false) :
    exec (.noteOff f) s = .next s := by
  rw [exec, execNoteOff, release, (firstMatch_eq_none s f).mpr h]

/-- No slot stands before slot 0, so it is taken whenever it is free. -/
theorem firstFree_eq_zero (h : (s.voice 0).active = false) : firstFree s = some 0 :=
  (firstFree_eq_some s 0).mpr ⟨h, fun j hj => absurd hj (Fin.not_lt_zero j)⟩

end

/-! ### Equality of frequencies -/

/-- Two patterns have one value exactly when they are one pattern or both are zeros. -/
theorem fpUnits_eq_iff (x y : F64) : fpUnits x = fpUnits y ↔ x = y ∨ isZero x = true ∧ isZero y = true := by
  constructor
  · intro h
    have hmag : fpMag x = fpMag y := by rw [← fpUnits_natAbs x, h, fpUnits_natAbs]
    have hlow : fpLow x = fpLow y := by
      rw [fpMag_eq, fpMag_eq] at hmag
      exact lowMag_strictMono.injective hmag
    by_cases hs : fpSign x = fpSign y
    · exact .inl (fp_ext hs hlow)
    · have hzero : fpMag x = 0 := by
        rw [fpUnits, fpUnits, Bool.eq_not.mpr (Ne.symm hs)] at h
        cases hx : fpSign x <;> simp [hx] at h <;> omega
      rw [fpMag_eq_zero_iff] at hzero
      exact .inr ⟨(isZero_iff x).mpr hzero, (isZero_iff y).mpr (hlow ▸ hzero)⟩
  · rintro (rfl | ⟨hx, hy⟩)
    · rfl
    · have hunits {z : F64} (hz : isZero z = true) : fpUnits z = 0 := by
        rw [← Int.natAbs_eq_zero, fpUnits_natAbs, fpMag_eq_zero_iff]
        exact (isZero_iff z).mp hz
      rw [hunits hx, hunits hy]

/-- IEEE equality spelled out (43_numerics.md R117). -/
theorem feq_iff (x y : F64) :
    feq x y = true ↔ isNaN x = false ∧ isNaN y = false ∧ (x = y ∨ isZero x = true ∧ isZero y = true) := by
  simp [feq, fpUnits_eq_iff, and_assoc]

theorem feq_self {f : F64} (h : isNaN f = false) : feq f f = true := (feq_iff f f).mpr ⟨h, h, .inl rfl⟩

/-! ### The increment of a new voice (40_voice_control.md R71 (b)) -/

theorem isNaN_fdivFS {f : F64} (h : isNaN f = true) : isNaN (fdivFS f) = true := by
  rw [fdivFS, if_pos h]
  exact isNaN_toNaN _

theorem fdivFS_of_isInf {f : F64} (h : isInf f = true) : fdivFS f = f := by
  have hnan : isNaN f = false := (not_isNaN_iff f).mpr ((isInf_iff f).mp h).le
  simp [fdivFS, hnan, h]

theorem fpSign_fdivFS {f : F64} (h : isNaN f = false) : fpSign (fdivFS f) = fpSign f := by
  rcases ((not_isNaN_iff f).mp h).lt_or_eq with hfin | hinf
  · rw [fdivFS_finite ((isFinite_iff f).mpr hfin), fpSign_pack _ (roundMag_lt _ _)]
  · rw [fdivFS_of_isInf ((isInf_iff f).mpr hinf)]

/-- Settles O10: the scan answers the slot the rule names, and `setVoice` changes that slot alone. -/
theorem noteOnWritesTheLowestFreeSlot : Obligations.NoteOnWritesTheLowestFreeSlot := by
  refine ⟨fun f a s i hfree hlow => ?_, fun f a s hfull => exec_noteOn_of_full hfull f a, ⟨by decide, fun f => ?_⟩, ?_⟩
  · exact ⟨_, exec_noteOn_of_firstFree ((firstFree_eq_some s i).mpr ⟨hfree, hlow⟩) f a,
      State.voice_setVoice_same s i _, fun j hj => State.voice_setVoice_ne s _ hj, rfl, rfl, rfl, rfl⟩
  · exact ⟨fpSign_fdivFS, fun hinf => by rwa [fdivFS_of_isInf hinf], isNaN_fdivFS⟩
  · have hdecode : decode 0x01407B8000000000003FE0000000000000 = .noteOn 0x407B800000000000 0x3FE0000000000000 := by
      decide
    have hfree : firstFree State.reset = some 0 := firstFree_eq_zero (by rw [State.voice_reset]; rfl)
    have hinc : fdivFS 0x407B800000000000 = 0x3F846EFDCB4A6B82 := by decide
    refine ⟨_, by rw [stepWord, hdecode]; exact exec_noteOn_of_firstFree hfree _ _, ?_,
      fun j hj => State.voice_setVoice_ne _ _ hj⟩
    rw [State.voice_setVoice_same, newVoice, hinc]
    rfl

/-- Settles O11: the rule's match is `FirstMatch`'s (`feq_iff`), and `setVoice` changes the matched slot alone. -/
theorem noteOffClearsTheLowestMatch : Obligations.NoteOffClearsTheLowestMatch := by
  intro f s matches_
  have hmatch (i : Slot) : matches_ i ↔ (s.voice i).active = true ∧ feq (s.voice i).frequency f = true := by
    rw [feq_iff]
  have hno {i : Slot} (h : ¬ matches_ i) (hactive : (s.voice i).active = true) :
      feq (s.voice i).frequency f = false := by
    rw [hmatch, not_and, Bool.not_eq_true] at h
    exact h hactive
  refine ⟨fun i hi hlow => ?_, fun hnone => exec_noteOff_of_no_match fun i => hno (hnone i)⟩
  have hfirst : firstMatch s f = some i :=
    (firstMatch_eq_some s f i).mpr ⟨(hmatch i).mp hi, fun j hj => hno (hlow j hj)⟩
  exact ⟨_, exec_noteOff_of_firstMatch hfirst, State.voice_setVoice_same s i _,
    fun j hj => State.voice_setVoice_ne s _ hj, rfl, rfl, rfl, rfl⟩

/-- Settles O14: of the four things an instruction can do to a slot, allocation alone sets the bit and release alone
clears it; the scans name the slot. -/
theorem activeBitsMoveOnlyByAllocationAndRelease : Obligations.ActiveBitsMoveOnlyByAllocationAndRelease := by
  intro i s t j h
  refine ⟨fun hfree hactive => ?_, fun hactive hfree => ?_, ?_, ?_⟩
  · rcases exec_voice_cases h j with he | ⟨f, a, hi, hscan, -⟩ | ⟨f, -, -, he⟩ | ⟨-, hbefore, -⟩
    · simp [he, hfree] at hactive
    · exact ⟨⟨f, a, hi⟩, ((firstFree_eq_some s j).mp hscan).2⟩
    · simp [he] at hactive
    · simp [hfree] at hbefore
  · rcases exec_voice_cases h j with he | ⟨f, a, -, -, he⟩ | ⟨f, hi, hscan, -⟩ | ⟨-, -, he⟩
    · simp [he, hactive] at hfree
    · simp [he, newVoice] at hfree
    · obtain ⟨⟨-, heq⟩, hlow⟩ := (firstMatch_eq_some s f j).mp hscan
      exact ⟨f, hi, heq, hlow⟩
    · simp [he, hactive] at hfree
  · rintro hfree hlow f a rfl
    rw [exec_noteOn_of_firstFree ((firstFree_eq_some s j).mpr ⟨hfree, hlow⟩)] at h
    rw [← Host.Outcome.next.inj h, State.voice_setVoice_same]
    rfl
  · rintro f rfl hactive heq hlow
    rw [exec_noteOff_of_firstMatch ((firstMatch_eq_some s f j).mpr ⟨⟨hactive, heq⟩, hlow⟩)] at h
    rw [← Host.Outcome.next.inj h, State.voice_setVoice_same]

/-! ### A pool filled from empty (40_voice_control.md R79) -/

/-- `t` is `s`, every slot of it free, with the notes (frequency, amplitude) allocated to the slots 0, 1, ... in order
of arrival. -/
structure FilledBy (s : State) (notes : List (F64 × F64)) (t : State) : Prop where
  free   : ∀ i, (s.voice i).active = false
  filled : ∀ (i : Slot) (n : F64 × F64), notes[i.val]? = some n → t.voice i = newVoice n.1 n.2 s.di
  kept   : ∀ i : Slot, notes.length ≤ i.val → t.voice i = s.voice i
  di     : t.di = s.di
  out    : t.out = s.out

theorem FilledBy.nil {s : State} (h : ∀ i, (s.voice i).active = false) : FilledBy s [] s :=
  ⟨h, by simp, fun _ _ => rfl, rfl, rfl⟩

section

variable {s t : State} {notes : List (F64 × F64)}

/-- The active slots are the first ones, as many as there are notes. -/
theorem FilledBy.active (h : FilledBy s notes t) (i : Slot) : (t.voice i).active = decide (i.val < notes.length) := by
  rcases Nat.lt_or_ge i.val notes.length with hlt | hge
  · rw [h.filled i _ (List.getElem?_eq_getElem hlt), decide_eq_true hlt]
    rfl
  · rw [h.kept i hge, h.free i, decide_eq_false (not_lt.mpr hge)]

theorem FilledBy.firstFree (h : FilledBy s notes t) (hlen : notes.length < 16) :
    firstFree t = some ⟨notes.length, hlen⟩ := by
  rw [firstFree_eq_some]
  exact ⟨by simp [h.active], fun j hj => by rw [h.active]; exact decide_eq_true hj⟩

/-- The next NOTE_ON takes the slot after the last one filled. -/
theorem FilledBy.exec_noteOn (h : FilledBy s notes t) (hlen : notes.length < 16) (f a : F64) :
    ∃ u, exec (.noteOn f a) t = .next u ∧ FilledBy s (notes ++ [(f, a)]) u := by
  refine ⟨_, exec_noteOn_of_firstFree (h.firstFree hlen) f a, h.free, fun i n hn => ?_, fun i hi => ?_, h.di, h.out⟩
  · rcases eq_or_ne i ⟨notes.length, hlen⟩ with rfl | hi
    · obtain rfl : (f, a) = n := by simpa using hn
      rw [State.voice_setVoice_same, h.di]
    · have hlt : i.val < notes.length := by
        have hle := (List.getElem?_eq_some_iff.mp hn).1
        rw [List.length_append, List.length_singleton] at hle
        have hne : i.val ≠ notes.length := fun he => hi (Fin.ext he)
        omega
      rw [List.getElem?_append_left hlt] at hn
      rw [State.voice_setVoice_ne t _ hi, h.filled i n hn]
  · rw [List.length_append, List.length_singleton] at hi
    rw [State.voice_setVoice_ne, h.kept i (by omega)]
    rintro rfl
    exact absurd hi (by simp)

/-- As many NOTE_ONs as there are slots, or fewer, fill the pool in order. -/
theorem exists_runWords_noteOns (hs : ∀ i, (s.voice i).active = false) (hlen : notes.length ≤ 16) :
    ∃ t, runWords (notes.map fun n => encode (.noteOn n.1 n.2)) s = .next t ∧ FilledBy s notes t := by
  induction notes using List.reverseRecOn with
  | nil => exact ⟨s, rfl, .nil hs⟩
  | append_singleton notes n ih =>
    rw [List.length_append, List.length_singleton] at hlen
    obtain ⟨t, ht, hfilled⟩ := ih (by omega)
    obtain ⟨u, hu, hfilled⟩ := hfilled.exec_noteOn hlen n.1 n.2
    refine ⟨u, ?_, hfilled⟩
    rw [List.map_append, List.map_singleton]
    exact runWords_concat ht (by rwa [stepWord, decode_encode rfl])

/-- The first note's slot is the lowest match of its frequency: NOTE_OFF frees slot 0, and the other filled slots stay
as they are. -/
theorem FilledBy.exec_noteOff_head {f a : F64} (h : FilledBy s ((f, a) :: notes) t) (hf : isNaN f = false) :
    ∃ u, exec (.noteOff f) t = .next u ∧ (∀ i, (u.voice i).active = decide (i ≠ 0 ∧ i.val ≤ notes.length)) ∧
      (∀ i, i ≠ 0 → u.voice i = t.voice i) ∧ u.di = s.di ∧ u.out = s.out := by
  have hzero : t.voice 0 = newVoice f a s.di := h.filled 0 (f, a) rfl
  have hfirst : firstMatch t f = some 0 := by
    rw [firstMatch_eq_some, hzero]
    exact ⟨⟨rfl, feq_self hf⟩, fun j hj => absurd hj (Fin.not_lt_zero j)⟩
  refine ⟨_, exec_noteOff_of_firstMatch hfirst, fun i => ?_, fun i hi => State.voice_setVoice_ne t _ hi, h.di, h.out⟩
  rcases eq_or_ne i 0 with rfl | hi
  · rw [State.voice_setVoice_same]
    rfl
  · rw [State.voice_setVoice_ne t _ hi, h.active]
    simp [hi]

end

/-- Settles O16: with 16 notes every slot is filled, so a further note is dropped. -/
theorem poolFillsInOrderOfArrival : Obligations.PoolFillsInOrderOfArrival := by
  intro s notes hs hlen
  obtain ⟨t, ht, hfilled⟩ := exists_runWords_noteOns hs hlen.le
  have hfull (i : Slot) : (t.voice i).active = true := by
    rw [hfilled.active, hlen]
    exact decide_eq_true i.isLt
  exact ⟨t, ht, hfilled.filled, hfilled.di, hfilled.out, exec_noteOn_of_full hfull⟩

/-- A word read as NOTE_ON has the frequency in its operand A (30_encoding.md R55). -/
theorem cwA_of_decode_noteOn {cw : CmdWord} {f a : F64} (h : decode cw = .noteOn f a) : cwA cw = f := by
  have hop : cwOp cw = 0x01 := by rw [← cwOp_encode_decode, h, encode, cwOp_mkCmdWord]
  rw [decode_of_noteOn hop] at h
  exact (Instr.noteOn.inj h).1

/-- Settles O17: the note takes slot 0, its NOTE_OFF clears slot 0, and then no slot is left to match. -/
theorem noteOnThenNoteOffLeavesNoVoice : Obligations.NoteOnThenNoteOffLeavesNoVoice := by
  rintro s on off hs ⟨f, a, hon, hoff⟩ hnan
  rw [cwA_of_decode_noteOn hon] at hnan
  obtain ⟨t, ht, hfilled⟩ := (FilledBy.nil hs).exec_noteOn (by decide) f a
  have hstepOn : stepWord on s = .next t := by rwa [stepWord, hon]
  obtain ⟨u, hu, hactive, -, hdi, hout⟩ := hfilled.exec_noteOff_head hnan
  have hstepOff : stepWord off t = .next u := by rwa [stepWord, hoff]
  have hfree (i : Slot) : (u.voice i).active = false := by
    rw [hactive, List.length_nil]
    revert i
    decide
  refine ⟨u, runWords_concat (runWords_cons_of_next hstepOn []) hstepOff, hfree, hout, hdi, ?_⟩
  rw [stepWord, hoff]
  exact exec_noteOff_of_no_match fun i hi => absurd (hi.symm.trans (hfree i)) (by decide)

/-- Settles O18: the notes take slots 0 and 1, NOTE_OFF clears the lower, which the next NOTE_ON finds free. -/
theorem duplicateFrequencyReleasesTheLowerSlot : Obligations.DuplicateFrequencyReleasesTheLowerSlot := by
  intro s f a b hs hnan
  obtain ⟨t, ht, hfilled⟩ := exists_runWords_noteOns (notes := [(f, a), (f, b)]) hs (by simp)
  obtain ⟨u, hu, hactive, hkept, -, -⟩ := hfilled.exec_noteOff_head hnan
  have hoff : stepWord (encode (.noteOff f)) t = .next u := by rwa [stepWord, decode_encode rfl]
  have hone : u.voice 1 = newVoice f b s.di := (hkept 1 (by decide)).trans (hfilled.filled 1 (f, b) rfl)
  have hnext (g c : F64) : exec (.noteOn g c) u = .next (u.setVoice 0 (newVoice g c u.di)) :=
    exec_noteOn_of_firstFree (firstFree_eq_zero (hactive 0)) g c
  refine ⟨u, runWords_concat ht hoff, fun i => ?_, by rw [hone]; rfl, by rw [hone]; rfl, fun g c => ?_⟩
  · rw [hactive, List.length_singleton]
    revert i
    decide
  · refine ⟨_, hnext g c, ?_, ?_, ?_, fun j hj => State.voice_setVoice_ne u _ hj⟩ <;>
      rw [State.voice_setVoice_same] <;> rfl

/-! ### SET_INSTRUMENT and NOP -/

/-- Settles O12: each code's meaning is the assignment, and the NOTE_ON after it captures the `DI` it left. -/
theorem setInstrumentAssignsTheDefault : Obligations.SetInstrumentAssignsTheDefault := by
  refine ⟨fun s => ⟨rfl, rfl, rfl, rfl⟩, fun s hfree f a => ?_⟩
  have hdecode : decode 0x0300000000000000000000000000000002 = .setInstrumentTrumpet := by decide
  have hset : stepWord 0x0300000000000000000000000000000002 s = .next (setDefaultInstrument .trumpet s) := by
    rw [stepWord, hdecode]
    rfl
  have hnote : exec (.noteOn f a) (setDefaultInstrument .trumpet s) =
      .next ((setDefaultInstrument .trumpet s).setVoice 0 (newVoice f a .trumpet)) :=
    exec_noteOn_of_firstFree (s := setDefaultInstrument .trumpet s) (firstFree_eq_zero hfree) f a
  rw [← decode_encode (i := .noteOn f a) rfl] at hnote
  exact ⟨_, runWords_concat (runWords_cons_of_next hset []) hnote, rfl,
    congrArg Voice.instrument (State.voice_setVoice_same _ 0 _)⟩

/-- Settles O13: every row that executes as NOP has one meaning (`exec_of_isNop`), and the words are read as such. -/
theorem nopChangesNothing : Obligations.NopChangesNothing := by
  refine ⟨fun i s h => exec_of_isNop h s, fun a b s => exec_of_isNop ?_ s, fun s => exec_of_isNop (by decide) s⟩
  rw [decode_mkCmdWord_nop]
  rfl

end Sys2Proof.Machine
end

section
/-! PROOFS. The wrap step of the phase accumulator and its corner cases (41_render_mix.md R86, R87, R92). -/

namespace Sys2Proof.Machine

/-! ### The one comparison -/

theorem fge_one_iff (p : F64) : fge p fpOne = true ↔ isNaN p = false ∧ fpUnits fpOne ≤ fpUnits p := by
  simp [fge, show isNaN fpOne = false from by decide]

theorem wrapPhase_of_fge {p : F64} (h : fge p fpOne = true) : wrapPhase p = fsub p fpOne := if_pos h

theorem wrapPhase_of_not_fge {p : F64} (h : fge p fpOne = false) : wrapPhase p = p := if_neg (Bool.eq_false_iff.mp h)

/-- A NaN and every phase below 1.0, a negative one too, are kept. -/
theorem wrapPhase_eq_self {p : F64} (h : isNaN p = true ∨ fpUnits p < fpUnits fpOne) : wrapPhase p = p := by
  refine wrapPhase_of_not_fge (Bool.eq_false_iff.mpr fun hge => ?_)
  obtain ⟨hnan, hle⟩ := (fge_one_iff p).mp hge
  rcases h with hn | hlt
  · exact Bool.false_ne_true (hnan.symm.trans hn)
  · exact absurd hle (not_le.mpr hlt)

theorem wrapPhase_eq_fsub {p : F64} (hp : isNaN p = false) (h : fpUnits fpOne ≤ fpUnits p) :
    wrapPhase p = fsub p fpOne := wrapPhase_of_fge ((fge_one_iff p).mpr ⟨hp, h⟩)

/-- The wrap as one rounded addition, the form the bounds of Laws/Float speak of. -/
theorem wrapPhase_eq_fadd {p : F64} (hp : isNaN p = false) (h : fpUnits fpOne ≤ fpUnits p) :
    wrapPhase p = fadd p (fneg fpOne) := by
  rw [wrapPhase_eq_fsub hp h, fsub_eq (by decide)]

/-! ### The one subtraction -/

theorem fpUnits_eq_fpMag_of_pos {x : F64} (h : 0 < fpUnits x) : fpUnits x = fpMag x := by
  rw [← fpUnits_natAbs]
  omega

theorem fpUnits_one_pos : 0 < fpUnits fpOne := by decide +kernel

theorem fpUnits_two : fpUnits 0x4000000000000000 = fpUnits fpOne + fpUnits fpOne := by decide +kernel

/-- The values in [1, 2) are the multiples of 2^1022 units with a 53-bit quotient. -/
theorem exists_quotient_of_one_le {p : F64} (h1 : fpUnits fpOne ≤ fpUnits p)
    (h2 : fpUnits p < fpUnits 0x4000000000000000) :
    ∃ q, 2 ^ 52 ≤ q ∧ q < 2 ^ 53 ∧ fpUnits p = ((q * 2 ^ 1022 : Nat) : Int) := by
  have hmag : fpUnits p = fpMag p := fpUnits_eq_fpMag_of_pos (lt_of_lt_of_le fpUnits_one_pos h1)
  have hone : fpUnits fpOne = fpMag fpOne := fpUnits_of_sign_false (by decide)
  have htwo : fpUnits 0x4000000000000000 = fpMag 0x4000000000000000 := fpUnits_of_sign_false (by decide)
  have hlo : fpLow fpOne ≤ fpLow p := (fpMag_le_iff _ _).mp (by omega)
  have hhi : ¬ fpLow 0x4000000000000000 ≤ fpLow p := mt (fpMag_le_iff _ _).mpr (by omega)
  rw [show fpLow fpOne = 1022 * 2 ^ 52 + 2 ^ 52 from by decide] at hlo
  rw [show fpLow 0x4000000000000000 = 1022 * 2 ^ 52 + 2 ^ 53 from by decide] at hhi
  obtain ⟨q, hq⟩ := Nat.exists_eq_add_of_le (le_trans (Nat.le_add_right _ _) hlo)
  refine ⟨q, by omega, by omega, ?_⟩
  rw [hmag, fpMag_eq, hq, lowMag_grid 1022 q (by omega) (.inr (by omega))]

/-- 1.0 taken from a value in [1, 2) is a binary64 value. -/
theorem exists_fpUnits_eq_sub_one {p : F64} (h1 : fpUnits fpOne ≤ fpUnits p)
    (h2 : fpUnits p < fpUnits 0x4000000000000000) :
    ∃ c, isNaN c = false ∧ fpUnits c = fpUnits p - fpUnits fpOne := by
  obtain ⟨q, hq52, hq53, hp⟩ := exists_quotient_of_one_le h1 h2
  obtain ⟨low, hlow⟩ := exists_lowMag_eq (q - 2 ^ 52) 1022 (by omega) (by norm_num)
  have hone : fpUnits fpOne = ((2 ^ 52 * 2 ^ 1022 : Nat) : Int) := by decide +kernel
  have hsub : fpUnits p - fpUnits fpOne = ((lowMag low : Nat) : Int) := by
    rw [hp, hone, hlow, Nat.sub_mul, Nat.cast_sub (Nat.mul_le_mul_right _ hq52)]
  have hle : low ≤ fpLow fpOne := by
    have htwo := fpUnits_two
    have hmag : fpUnits fpOne = fpMag fpOne := fpUnits_of_sign_false (by decide)
    rw [← lowMag_strictMono.le_iff_le, ← fpMag_eq]
    omega
  refine ⟨fpPack false low, ?_, ?_⟩
  · rw [not_isNaN_iff, fpLow_pack _ (lt_of_le_of_lt hle (fpLow_lt _))]
    exact hle.trans (by decide)
  · rw [fpUnits_pack _ (lt_of_le_of_lt hle (fpLow_lt _)), hsub]
    rfl

/-- A value below that of a finite pattern and not negative is of a finite pattern. -/
theorem isFinite_of_fpUnits_lt {x y : F64} (hy : isFinite y = true) (hx : 0 ≤ fpUnits x) (h : fpUnits x < fpUnits y) :
    isFinite x = true := by
  refine isFinite_of_low_le hy ((fpMag_le_iff x y).mp ?_)
  rw [← fpUnits_natAbs, ← fpUnits_natAbs]
  omega

/-- From [1, 2) the wrap adds no rounding error (41_render_mix.md R87 (b)). -/
theorem fpUnits_wrapPhase_exact {p : F64} (h1 : fpUnits fpOne ≤ fpUnits p)
    (h2 : fpUnits p < fpUnits 0x4000000000000000) : fpUnits (wrapPhase p) = fpUnits p - fpUnits fpOne := by
  obtain ⟨c, hc, hcp⟩ := exists_fpUnits_eq_sub_one h1 h2
  have hfin : isFinite p = true := isFinite_of_fpUnits_lt (by decide) (fpUnits_one_pos.le.trans h1) h2
  rw [wrapPhase_eq_fadd (not_isNaN_of_isFinite hfin) h1, ← hcp]
  exact fadd_units_exact hfin (by decide) hc (by rw [fpUnits_fneg, hcp, sub_eq_add_neg])

/-- From 2.0 up one subtraction does not reach the interval (41_render_mix.md R87 (c)). -/
theorem one_le_fpUnits_wrapPhase {p : F64} (hfin : isFinite p = true) (h : fpUnits 0x4000000000000000 ≤ fpUnits p) :
    fpUnits fpOne ≤ fpUnits (wrapPhase p) := by
  have htwo := fpUnits_two
  have hone := fpUnits_one_pos
  rw [wrapPhase_eq_fadd (not_isNaN_of_isFinite hfin) (by omega)]
  exact le_fadd_units hfin (by decide) (by decide) (by rw [fpUnits_fneg]; omega)

/-! ### The advance before it -/

/-- A NaN phase stays a NaN for ever (41_render_mix.md R87 (e)). -/
theorem isNaN_nextPhase {p : F64} (h : isNaN p = true) (inc : F64) : isNaN (nextPhase p inc) = true := by
  have hsum : isNaN (fadd p inc) = true := by
    rw [fadd, h, Bool.true_or, if_pos rfl]
    exact isNaN_toNaN _
  rwa [nextPhase, wrapPhase_eq_self (.inl hsum)]

/-- An infinite increment is the sum. -/
theorem fadd_of_isFinite_of_isInf {a b : F64} (ha : isFinite a = true) (hb : isInf b = true) : fadd a b = b := by
  have hnan : isNaN b = false := (not_isNaN_iff b).mpr ((isInf_iff b).mp hb).le
  simp [fadd, not_isNaN_of_isFinite ha, not_isInf_of_isFinite ha, hnan, hb]

theorem isFinite_or_isInf {x : F64} (h : isNaN x = false) : isFinite x = true ∨ isInf x = true := by
  rw [isFinite_iff, isInf_iff]
  exact ((not_isNaN_iff x).mp h).lt_or_eq

section

variable {p inc : F64} (hp : phaseInRange p = true) (hinc : isNaN inc = false)

include hp hinc

/-- From a phase in range only an increment of 1.0 or more reaches 2.0 (41_render_mix.md R87 (c)). -/
theorem one_le_of_two_le_fadd (h : fpUnits 0x4000000000000000 ≤ fpUnits (fadd p inc)) :
    fpUnits fpOne ≤ fpUnits inc := by
  have hpf : isFinite p = true := isFinite_of_phaseInRange hp
  rcases isFinite_or_isInf hinc with hfin | hinf
  · by_contra hlt
    have hsum : fpUnits p + fpUnits inc ≤ fpUnits fpPredTwo := by
      have hpred : fpUnits fpPredOne + fpUnits fpPredOne = fpUnits fpPredTwo := by decide +kernel
      have hp1 := fpUnits_le_predOne ((phaseInRange_iff p).mp hp).2
      have hi1 := fpUnits_le_predOne (not_le.mp hlt)
      omega
    have htwo : fpUnits fpPredTwo < fpUnits 0x4000000000000000 := by decide +kernel
    exact absurd (h.trans (fadd_units_le hpf hfin (by decide) hsum)) (not_le.mpr htwo)
  · rw [fadd_of_isFinite_of_isInf hpf hinf] at h
    have htwo := fpUnits_two
    have hone := fpUnits_one_pos
    omega

/-- From a phase in range only a negative increment leads below 0 (41_render_mix.md R87 (d)). -/
theorem neg_of_fadd_neg (h : fpUnits (fadd p inc) < 0) : fpUnits inc < 0 := by
  have hpf : isFinite p = true := isFinite_of_phaseInRange hp
  rcases isFinite_or_isInf hinc with hfin | hinf
  · by_contra hge
    have hp0 : fpUnits p = fpMag p := fpUnits_of_sign_false ((phaseInRange_iff p).mp hp).1
    have hzero : fpUnits fpZero = 0 := by decide
    have hsum : fpUnits fpZero ≤ fpUnits (fadd p inc) := le_fadd_units hpf hfin (by decide) (by omega)
    omega
  · rwa [fadd_of_isFinite_of_isInf hpf hinf] at h

end

/-- Settles O22: the comparison picks the clause; in [1, 2) the difference is a binary64 value, and elsewhere the bounds
of one rounded addition hold. -/
theorem wrapSubtractsOneAtMostOnce : Obligations.WrapSubtractsOneAtMostOnce :=
  ⟨fun _ => wrapPhase_eq_self, fun _ => wrapPhase_eq_fsub, by decide, fun _ => fpUnits_wrapPhase_exact,
    fun _ => one_le_fpUnits_wrapPhase,
    fun _ _ hneg => wrapPhase_eq_self (.inr (hneg.trans fpUnits_one_pos)),
    fun _ inc hnan => isNaN_nextPhase hnan inc, by decide,
    fun _ _ hp hinc => ⟨one_le_of_two_le_fadd hp hinc, neg_of_fadd_neg hp hinc⟩⟩

/-- Settles O23: `phaseInRange_nextPhase`. -/
theorem nextPhaseStaysInTheUnitInterval : Obligations.NextPhaseStaysInTheUnitInterval :=
  fun _ _ => phaseInRange_nextPhase

end Sys2Proof.Machine
end

section
/-! PROOFS. The mixer: the frame a RENDER emits is the left fold over the active slots in increasing index order
(41_render_mix.md R80 to R85, R93). -/

namespace Sys2Proof.Machine

/-! ### The mix in closed form -/

/-- The slots that take part in a RENDER, in increasing index order (41_render_mix.md R82). -/
def activeSlots (s : State) : List Slot := (List.finRange 16).filter (fun i => (s.voice i).active)

/-- The left fold, from +0.0, of the terms of the active slots: either half of the frame a RENDER emits
(`renderFrame_out_mix`). -/
def mix (sin : F64 → F64) (s : State) : F64 :=
  (activeSlots s).foldl (fun acc i => fadd acc (voiceTerm sin (s.voice i))) fpZero

/-- Skipping free slots is folding over the active ones alone, in both halves. -/
theorem foldl_mixVoice_eq (sin : F64 → F64) (v : Slot → Voice) (l : List Slot) (a : F64) :
    l.foldl (fun f i => mixVoice sin f (v i)) { left := a, right := a } =
      let half := (l.filter (fun i => (v i).active)).foldl (fun acc i => fadd acc (voiceTerm sin (v i))) a
      { left := half, right := half } := by
  induction l generalizing a with
  | nil => rfl
  | cons i l ih =>
    rw [List.foldl_cons]
    cases h : (v i).active with
    | true =>
      rw [mixVoice, if_pos h, ih, List.filter_cons, if_pos h, List.foldl_cons]
    | false =>
      rw [mixVoice_of_free sin _ _ h, ih, List.filter_cons, if_neg (Bool.eq_false_iff.mp h)]

theorem renderFrame_out_mix (sin : F64 → F64) (s : State) :
    (renderFrame sin s).out = s.out ++ [{ left := mix sin s, right := mix sin s }] := by
  rw [renderFrame_out, foldl_mixVoice_eq, show slots = List.finRange 16 from by decide]
  rfl

theorem advanceVoice_of_active {v : Voice} (h : v.active = true) :
    advanceVoice v = { v with phase := nextPhase v.phase v.increment } := if_pos h

/-- Settles O19: `renderFrame_out_mix` for the frame, `advanceVoice` for each slot, the wrap by its comparison. -/
theorem renderEmitsTheFoldAndAdvancesThePhases : Obligations.RenderEmitsTheFoldAndAdvancesThePhases := by
  intro s
  refine ⟨renderFrame sinUnit s, rfl, renderFrame_out_mix sinUnit s, fun i hactive => ?_, fun i hfree => ?_,
    renderFrame_di sinUnit s, renderFrame_taken sinUnit s, renderFrame_pending sinUnit s⟩
  · intro p
    rw [renderFrame_voice, advanceVoice_of_active hactive]
    exact ⟨fun hge => by rw [nextPhase, wrapPhase_of_fge hge]; rfl,
      fun hlt => by rw [nextPhase, wrapPhase_of_not_fge hlt]⟩
  · rw [renderFrame_voice, advanceVoice_of_free _ hfree]

/-! ### Which slots take part -/

/-- The active slots are known by their members: there is one increasing list of them. -/
theorem activeSlots_eq {s : State} {l : List Slot} (hl : l.Pairwise (· < ·))
    (h : ∀ i, (s.voice i).active = true ↔ i ∈ l) : activeSlots s = l :=
  ((List.sortedLT_finRange 16).pairwise.filter _).eq_of_mem_iff hl fun i => by simp [h]

theorem activeSlots_eq_nil {s : State} (h : ∀ i, (s.voice i).active = false) : activeSlots s = [] :=
  activeSlots_eq .nil fun i => by simp [h]

/-- Settles O20: with no slot to visit the fold is its start, and every voice is a free one, kept. -/
theorem renderOfNoVoiceEmitsZero : Obligations.RenderOfNoVoiceEmitsZero := by
  intro s hfree
  have hmix : mix sinUnit s = fpZero := by rw [mix, activeSlots_eq_nil hfree, List.foldl_nil]
  have hout := renderFrame_out_mix sinUnit s
  rw [hmix] at hout
  refine congrArg Host.Outcome.next (State.ext_voice (fun i => ?_) (renderFrame_di sinUnit s) hout
    (renderFrame_taken sinUnit s) (renderFrame_pending sinUnit s))
  rw [renderFrame_voice, advanceVoice_of_free _ (hfree i)]
  rfl

/-! ### Two voices -/

/-- A zero with the sign bit set is -0.0. -/
theorem eq_neg_zero_of_fpUnits_eq_zero {x : F64} (hs : fpSign x = true) (h : fpUnits x = 0) :
    x = 0x8000000000000000 := by
  have hlow : fpLow x = 0 := by rw [← fpMag_eq_zero_iff, ← fpUnits_natAbs, h, Int.natAbs_zero]
  exact fp_ext hs (hlow.trans (by decide))

/-- But for a zero the sign bit is the sign of the value. -/
theorem fpSign_eq_decide {x : F64} (h : fpUnits x ≠ 0) : fpSign x = decide (fpUnits x < 0) := by
  cases hs : fpSign x with
  | true =>
    have hneg : fpUnits x = -(fpMag x : Int) := by rw [fpUnits, if_pos hs]
    exact (decide_eq_true (by omega)).symm
  | false =>
    have hpos : fpUnits x = fpMag x := fpUnits_of_sign_false hs
    exact (decide_eq_false (by omega)).symm

/-- +0.0 is the neutral start of the fold for every term but -0.0 and a NaN (43_numerics.md R112). -/
theorem fadd_zero_left {t : F64} (hnan : isNaN t = false) (hne : t ≠ 0x8000000000000000) : fadd fpZero t = t := by
  rcases isFinite_or_isInf hnan with hfin | hinf
  · have hzero : fpUnits fpZero = 0 := by decide
    rw [fadd_finite (by decide) hfin, hzero, zero_add, fpUnits_natAbs, fpMag_eq,
      roundMag_exact _ 1 (fpLow t) one_pos ((not_isNaN_iff t).mp hnan) (one_mul _).symm]
    refine fp_ext ?_ (fpLow_pack _ (fpLow_lt t))
    rw [fpSign_pack _ (fpLow_lt t)]
    split
    case isTrue h0 =>
      cases hs : fpSign t with
      | false => rfl
      | true => exact absurd (eq_neg_zero_of_fpUnits_eq_zero hs h0) hne
    case isFalse h0 => exact (fpSign_eq_decide h0).symm
  · exact fadd_of_isFinite_of_isInf (by decide) hinf

/-- Settles O24: the fold over the two active slots, and +0.0 its neutral start. -/
theorem twoVoicesSuperpose : Obligations.TwoVoicesSuperpose := by
  intro s x y hxy hactive term
  have hslots : activeSlots s = [x, y] :=
    activeSlots_eq (List.pairwise_pair.mpr hxy) fun i => by simp [hactive]
  have hmix : mix sinUnit s = fadd (fadd fpZero (term x)) (term y) := by rw [mix, hslots]; rfl
  refine ⟨_, _, rfl, renderFrame_out_mix sinUnit s, hmix, rfl, fun hnan hne => ?_⟩
  exact hmix.trans (by rw [fadd_zero_left hnan hne])

end Sys2Proof.Machine
end

section
/-! PROOFS. One sounding voice: the example of 41_render_mix.md R80. -/

namespace Sys2Proof.Machine

/-- Slot 0 alone is active, it holds v, and OUT holds the frames. -/
structure SoloVoice (v : Voice) (frames : List Frame) (s : State) : Prop where
  voice  : s.voice 0 = v
  active : v.active = true
  free   : ∀ i, i ≠ 0 → (s.voice i).active = false
  out    : s.out = frames

/-- The frame of one voice: its term, added to +0.0, in both halves. -/
def soloFrame (v : Voice) : Frame :=
  let half := fadd fpZero (voiceTerm sinUnit v)
  { left := half, right := half }

/-- A NOTE_ON from reset takes slot 0 and leaves the others free. -/
theorem soloVoice_noteOn_reset (f a : F64) :
    ∃ t, exec (.noteOn f a) State.reset = .next t ∧ SoloVoice (newVoice f a .piano) [] t := by
  have hfree : firstFree State.reset = some 0 := firstFree_eq_zero (by rw [State.voice_reset]; rfl)
  refine ⟨_, exec_noteOn_of_firstFree hfree f a, State.voice_setVoice_same _ 0 _, rfl, fun i hi => ?_, rfl⟩
  rw [State.voice_setVoice_ne _ _ hi, State.voice_reset]
  rfl

/-- A RENDER of one voice emits its frame and advances it. -/
theorem SoloVoice.stepWord_render {v : Voice} {frames : List Frame} {s : State} (h : SoloVoice v frames s)
    {cw : CmdWord} (hcw : decode cw = .render) :
    ∃ t, stepWord cw s = .next t ∧ SoloVoice { v with phase := nextPhase v.phase v.increment }
      (frames ++ [soloFrame v]) t := by
  obtain ⟨hvoice, hactive, hfree, hout⟩ := h
  have hslots : activeSlots s = [0] := activeSlots_eq (List.pairwise_singleton _ _) fun i => by
    rcases eq_or_ne i 0 with rfl | hi
    · simp [hvoice, hactive]
    · simp [hfree i hi, hi]
  have hmix : mix sinUnit s = fadd fpZero (voiceTerm sinUnit v) := by
    rw [mix, hslots, List.foldl_cons, List.foldl_nil, hvoice]
  refine ⟨renderFrame sinUnit s, by rw [stepWord, hcw]; rfl, ?_, hactive, fun i hi => ?_, ?_⟩
  · rw [renderFrame_voice, hvoice, advanceVoice_of_active hactive]
  · rw [renderFrame_voice, advanceVoice_of_free _ (hfree i hi), hfree i hi]
  · rw [renderFrame_out_mix, hmix, hout]
    rfl

/-- The voice of NOTE ON 11025 1, a quarter of a cycle a frame, at a phase. -/
def quarterVoice (phase : F64) : Voice :=
  { newVoice 0x40C5888000000000 fpOne .piano with phase := phase, increment := 0x3FD0000000000000 }

theorem newVoice_eq_quarterVoice : newVoice 0x40C5888000000000 fpOne .piano = quarterVoice fpZero := by
  have hinc : fdivFS 0x40C5888000000000 = 0x3FD0000000000000 := by decide
  rw [newVoice, hinc]
  rfl

/-- One RENDER of that voice, from phase p to phase q. -/
theorem stepWord_render_quarterVoice {p q : F64} {frames : List Frame} {s : State}
    (h : SoloVoice (quarterVoice p) frames s) (hq : nextPhase p 0x3FD0000000000000 = q) :
    ∃ t, stepWord 0x0400000000000000000000000000000000 s = .next t ∧
      SoloVoice (quarterVoice q) (frames ++ [soloFrame (quarterVoice p)]) t := by
  subst hq
  exact h.stepWord_render (by decide)

/-- Settles O21: each RENDER moves the voice a quarter of a cycle on, the fourth from 0.75 through exactly 1.0. -/
theorem quarterCycleExample : Obligations.QuarterCycleExample := by
  have hdecode : decode 0x0140C58880000000003FF0000000000000 = .noteOn 0x40C5888000000000 fpOne := by decide
  obtain ⟨s0, hs0, h0⟩ := soloVoice_noteOn_reset 0x40C5888000000000 fpOne
  rw [newVoice_eq_quarterVoice] at h0
  obtain ⟨s1, hs1, h1⟩ := stepWord_render_quarterVoice h0 (q := 0x3FD0000000000000) (by decide)
  obtain ⟨s2, hs2, h2⟩ := stepWord_render_quarterVoice h1 (q := 0x3FE0000000000000) (by decide)
  obtain ⟨s3, hs3, h3⟩ := stepWord_render_quarterVoice h2 (q := 0x3FE8000000000000) (by decide)
  obtain ⟨s4, hs4, h4⟩ := stepWord_render_quarterVoice h3 (q := fpZero) (by decide)
  rw [← hdecode] at hs0
  refine ⟨s3, ?_, congrArg Voice.phase h3.voice, h3.out, s4, hs4, congrArg Voice.phase h4.voice, h4.out⟩
  rw [runWords_cons_of_next hs0, runWords_cons_of_next hs1, runWords_cons_of_next hs2, runWords_cons_of_next hs3,
    runWords]

end Sys2Proof.Machine
end

section
/-! PROOFS. The waveform unit: its recipes, its value at phase +0.0, the engine's sine, and the bound on a waveform
value (42_waveform.md R95 to R98, R104 to R106). -/

namespace Sys2Proof.Machine

/-- Settles O41: the recipe table and its constants written out in the waveform's evaluation. -/
theorem waveformFollowsTheRecipes : Obligations.WaveformFollowsTheRecipes :=
  fun _ _ => ⟨rfl, rfl, rfl⟩

/-! ### Phase +0.0 -/

theorem harmonicArg_zero (h : Harmonic) : harmonicArg fpZero h = fpZero := by
  cases h <;> decide

/-- The products of the recipes' weights with +0.0. -/
theorem fmul_weight_zero (c : Instrument) :
    fmul (recipe c).w2 fpZero = fpZero ∧ fmul (recipe c).w3 fpZero = fpZero := by
  cases c <;> decide

/-- Settles O42: every angle is +0.0, so every sine is, and every product and sum. -/
theorem waveformAtPhaseZeroIsZero : Obligations.WaveformAtPhaseZeroIsZero := by
  intro c
  change waveform sinUnit c fpZero = fpZero
  have htheta : fmul fpTwoPi fpZero = fpZero := by decide
  have hsum : fadd fpZero fpZero = fpZero := by decide
  obtain ⟨hw2, hw3⟩ := fmul_weight_zero c
  simp only [waveform, htheta, harmonicArg_zero, sinUnit_zero, hw2, hw3, hsum]

/-- Settles O43: `sinUnit_admissible`, its bound on magnitudes read as an interval. -/
theorem sineHasItsNamedProperties : Obligations.SineHasItsNamedProperties := by
  refine ⟨sinUnit_zero, fun x hx => ?_, ⟨sinUnit_admissible.eps_le, sinUnit_admissible.accuracy⟩,
    sinUnit_admissible.nonfinite⟩
  obtain ⟨hfin, hmag⟩ := sinUnit_finite hx
  have hpos : fpUnits 0x3FF0000000000000 = fpMag fpOne := fpUnits_of_sign_false (by decide)
  have hneg : fpUnits 0xBFF0000000000000 = -(fpMag fpOne : Int) := by decide +kernel
  rw [← fpUnits_natAbs (sinUnit x)] at hmag
  exact ⟨hfin, by omega, by omega⟩

/-! ### Magnitudes (42_waveform.md R105) -/

/-- Larger operands of like sign give no smaller magnitude of the sum. -/
theorem fadd_low_mono {a b a' b' : F64} (ha' : isFinite a' = true) (hb' : isFinite b' = true)
    (hsa : fpSign a' = false) (hsb : fpSign b' = false) (ha : fpLow a ≤ fpLow a') (hb : fpLow b ≤ fpLow b') :
    fpLow (fadd a b) ≤ fpLow (fadd a' b') := by
  rw [fadd_finite (isFinite_of_low_le ha' ha) (isFinite_of_low_le hb' hb), fadd_finite ha' hb',
    fpLow_pack _ (roundMag_lt _ _), fpLow_pack _ (roundMag_lt _ _)]
  refine roundMag_mono _ _ 1 one_pos ?_
  rw [← fpMag_le_iff, ← fpUnits_natAbs] at ha hb
  rw [fpUnits_of_sign_false hsa, fpUnits_of_sign_false hsb]
  omega

/-- A factor of magnitude at most 1.0 does not raise a magnitude. -/
theorem fmul_low_le_left {w s : F64} (hw : isFinite w = true) (hs : isFinite s = true) (h : fpMag s ≤ fpMag fpOne) :
    fpLow (fmul w s) ≤ fpLow w := by
  have hone : fpMag fpOne = 2 ^ 1074 := by decide +kernel
  refine fmul_mag_le hw hs (not_isNaN_of_isFinite hw) ?_
  rw [Nat.mul_comm, ← hone]
  exact Nat.mul_le_mul_right _ h

/-- A larger finite second factor gives no smaller magnitude of the product. -/
theorem fmul_low_mono {a b b' : F64} (ha : isFinite a = true) (hb' : isFinite b' = true) (h : fpLow b ≤ fpLow b') :
    fpLow (fmul a b) ≤ fpLow (fmul a b') := by
  rw [fmul_finite ha (isFinite_of_low_le hb' h), fmul_finite ha hb', fpLow_pack _ (roundMag_lt _ _),
    fpLow_pack _ (roundMag_lt _ _)]
  exact roundMag_mono _ _ _ (by positivity) (Nat.mul_le_mul_left _ ((fpMag_le_iff b b').mpr h))

/-- No angle overflows for a phase of at most 2^1000 (log 19). -/
theorem isFinite_harmonicArg {phase : F64} (h : fpMag phase ≤ fpMag fpTwoPow1000) (k : Harmonic) :
    isFinite (harmonicArg (fmul fpTwoPi phase) k) = true := by
  have hbound : isFinite (fmul fpTwoPi fpTwoPow1000) = true := by decide +kernel
  have htheta : fpLow (fmul fpTwoPi phase) ≤ fpLow (fmul fpTwoPi fpTwoPow1000) :=
    fmul_low_mono (by decide) (by decide) ((fpMag_le_iff _ _).mp h)
  have hscaled {n : F64} (hn : isFinite n = true) (hf : isFinite (fmul n (fmul fpTwoPi fpTwoPow1000)) = true) :
      isFinite (fmul n (fmul fpTwoPi phase)) = true := isFinite_of_low_le hf (fmul_low_mono hn hbound htheta)
  cases k with
  | k1 => exact isFinite_of_low_le hbound htheta
  | k2 => exact hscaled (by decide) (by decide +kernel)
  | k3 => exact hscaled (by decide) (by decide +kernel)
  | k4 => exact hscaled (by decide) (by decide +kernel)
  | k5 => exact hscaled (by decide) (by decide +kernel)
  | k6 => exact hscaled (by decide) (by decide +kernel)

/-- The waveform's sum with every sine at 1.0: the bound on its magnitude. -/
def waveformPeak (c : Instrument) : F64 := fadd (fadd fpOne (recipe c).w2) (recipe c).w3

theorem isFinite_weights (c : Instrument) : isFinite (recipe c).w2 = true ∧ isFinite (recipe c).w3 = true := by
  cases c <;> decide

/-- The operands of the peak's sums are finite and without a sign bit, and the peak is finite. -/
theorem waveformPeak_spec (c : Instrument) : fpSign (recipe c).w2 = false ∧ fpSign (recipe c).w3 = false ∧
    isFinite (fadd fpOne (recipe c).w2) = true ∧ fpSign (fadd fpOne (recipe c).w2) = false ∧
    isFinite (waveformPeak c) = true := by
  cases c <;> decide +kernel

/-- No sine is above 1.0, and rounded sums and products keep the order. -/
theorem waveform_low_le_peak {phase : F64} (h : fpMag phase ≤ fpMag fpTwoPow1000) (c : Instrument) :
    fpLow (waveform sinUnit c phase) ≤ fpLow (waveformPeak c) := by
  have hsine (k : Harmonic) := sinUnit_finite (isFinite_harmonicArg h k)
  obtain ⟨hw2, hw3⟩ := isFinite_weights c
  obtain ⟨hs2, hs3, hsum, hssum, -⟩ := waveformPeak_spec c
  have hfirst (k : Harmonic) : fpLow (sinUnit (harmonicArg (fmul fpTwoPi phase) k)) ≤ fpLow fpOne := by
    obtain ⟨-, hmag⟩ := hsine k
    exact (fpMag_le_iff _ _).mp hmag
  have hterm {w : F64} (hw : isFinite w = true) (k : Harmonic) :
      fpLow (fmul w (sinUnit (harmonicArg (fmul fpTwoPi phase) k))) ≤ fpLow w := by
    obtain ⟨hfin, hmag⟩ := hsine k
    exact fmul_low_le_left hw hfin hmag
  exact fadd_low_mono hsum hw3 hssum hs3
    (fadd_low_mono (by decide) hw2 (by decide) hs2 (hfirst _) (hterm hw2 _)) (hterm hw3 _)

/-- Settles O44: `waveform_low_le_peak`, and the three peaks. -/
theorem waveformIsBoundedByItsWeights : Obligations.WaveformIsBoundedByItsWeights := by
  intro phase _ h
  have hpeak (c : Instrument) := waveform_low_le_peak h c
  have hmag {c : Instrument} {b : F64} (hb : fpLow (waveformPeak c) ≤ fpLow b) :
      fpMag (waveform sinUnit c phase) ≤ fpMag b := (fpMag_le_iff _ _).mpr ((hpeak c).trans hb)
  refine ⟨fun c => ?_, hmag (by decide +kernel), hmag (by decide +kernel), hmag (by decide +kernel)⟩
  obtain ⟨-, -, -, -, hfin⟩ := waveformPeak_spec c
  exact isFinite_of_low_le hfin (hpeak c)

end Sys2Proof.Machine
end

section
/-! PROOFS. Values as real numbers: each rounding in the range below 64 moves the value by no more than 2^-47
(43_numerics.md R110, R111). -/

namespace Sys2Proof.Machine

/-- The value of a finite pattern (43_numerics.md R110). -/
noncomputable def fpReal (x : F64) : ℝ := (fpUnits x : ℝ) / 2 ^ 1074

/-- A value of m x 2^-j, read off the units. -/
theorem fpReal_eq_div {x : F64} {m : Int} (j : Nat) (h : fpUnits x * 2 ^ j = m * 2 ^ 1074) :
    fpReal x = m / 2 ^ j := by
  have hreal : (fpUnits x : ℝ) * 2 ^ j = m * 2 ^ 1074 := by
    simpa only [Int.cast_mul, Int.cast_pow, Int.cast_ofNat] using congrArg (Int.cast : Int → ℝ) h
  rw [fpReal, div_eq_div_iff (by positivity) (by positivity), hreal]

theorem fpReal_nonneg_of_sign_false {x : F64} (h : fpSign x = false) : 0 ≤ fpReal x := by
  rw [fpReal, fpUnits_of_sign_false h]
  positivity

/-- Below 2^1024 there are finite patterns alone. -/
theorem isFinite_of_abs_fpReal_lt {x : F64} (h : |fpReal x| < 2 ^ 1024) : isFinite x = true := by
  have hinf : lowMag infLow = 2 ^ 1024 * 2 ^ 1074 := by decide +kernel
  have hmag : |(fpUnits x : ℝ)| = fpMag x := by rw [← fpUnits_natAbs, Nat.cast_natAbs, Int.cast_abs]
  rw [fpReal, abs_div, abs_of_pos (by positivity : (0 : ℝ) < 2 ^ 1074), div_lt_iff₀ (by positivity), hmag] at h
  rw [isFinite_iff, ← lowMag_strictMono.lt_iff_lt, ← fpMag_eq, hinf]
  exact_mod_cast h

/-- In the range below 64 some pattern lies within 2^-47 (here `step / den` units) of an exact value: the one below it
with 47 binary places. -/
theorem exists_fpUnits_near {num : Int} {den step : Nat} (hd : 0 < den) (hstep : step = den * 2 ^ 1027)
    (h : num.natAbs < 2 ^ 53 * step) : ∃ c, isNaN c = false ∧ |num - den * fpUnits c| ≤ step := by
  have hpos : 0 < step := by
    rw [hstep]
    positivity
  have hk : num.natAbs / step < 2 ^ 53 := (Nat.div_lt_iff_lt_mul hpos).mpr h
  obtain ⟨low, hlow⟩ := exists_lowMag_eq _ 1027 hk (by norm_num)
  have hle : low ≤ infLow := by
    have hinf : lowMag infLow = 2 ^ 53 * 2 ^ 2045 := by decide +kernel
    rw [← lowMag_strictMono.le_iff_le, hlow, hinf]
    gcongr
    · exact one_le_two
    · norm_num
  have hlt : low < 2 ^ 63 := lt_of_le_of_lt hle infLow_lt
  refine ⟨fpPack (decide (num < 0)) low, by rwa [not_isNaN_iff, fpLow_pack _ hlt], ?_⟩
  have hdiv := Nat.div_add_mod num.natAbs step
  have hmod := Nat.mod_lt num.natAbs hpos
  have hprod : den * lowMag low = step * (num.natAbs / step) := by rw [hlow, Nat.mul_left_comm, ← hstep, Nat.mul_comm]
  rw [← hprod] at hdiv
  rw [fpUnits_pack _ hlt, Int.abs_eq_natAbs, Nat.cast_le]
  by_cases hneg : num < 0
  · rw [if_pos (decide_eq_true hneg), mul_neg, ← Nat.cast_mul]
    omega
  · rw [if_neg (by simpa using hneg), ← Nat.cast_mul]
    omega

/-- A rounding in the range below 64 moves the value by no more than 2^-47. -/
theorem NearestEven.near {num : Int} {den : Nat} {r : F64} (hr : NearestEven num den r) (hd : 0 < den) {x : ℝ}
    (hx : (num : ℝ) = x * (den * 2 ^ 1074)) (h : |x| < 64) : |fpReal r - x| ≤ 1 / 2 ^ 47 := by
  obtain ⟨step, hstep⟩ : ∃ step, step = den * 2 ^ 1027 := ⟨_, rfl⟩
  have hscale : (den : ℝ) * 2 ^ 1074 = 2 ^ 47 * step := by
    have hpow : (2 : ℝ) ^ 1074 = 2 ^ 47 * 2 ^ 1027 := by rw [← pow_add]
    rw [hpow, hstep, Nat.cast_mul, Nat.cast_pow, Nat.cast_ofNat]
    exact mul_left_comm _ _ _
  have hpos : (0 : ℝ) < 2 ^ 47 * step := by
    rw [← hscale]
    positivity
  have hunits : (den : ℝ) * fpUnits r = fpReal r * (2 ^ 47 * step) := by
    rw [fpReal, ← hscale]
    field_simp
  rw [hscale] at hx
  have hnum : num.natAbs < 2 ^ 53 * step := by
    have hlt : ((num.natAbs : Nat) : ℝ) < 64 * (2 ^ 47 * step) := by
      rw [Nat.cast_natAbs, Int.cast_abs, hx, abs_mul, abs_of_pos hpos]
      exact mul_lt_mul_of_pos_right h hpos
    have : ((num.natAbs : Nat) : ℝ) < ((2 ^ 53 * step : Nat) : ℝ) := hlt.trans_eq (by push_cast; ring)
    exact_mod_cast this
  obtain ⟨c, hc, hnear⟩ := exists_fpUnits_near hd hstep hnum
  have hround : |(num : ℝ) - den * fpUnits r| ≤ step := by exact_mod_cast (hr.2 c hc).1.trans hnear
  rw [hunits, hx, ← sub_mul, abs_mul, abs_of_pos hpos, abs_sub_comm] at hround
  rw [← mul_le_mul_iff_left₀ hpos]
  exact hround.trans_eq (by ring)

/-- The sign and magnitude the product is packed with make the exact product. -/
theorem fmul_signed (a b : F64) :
    (if (fpSign a ^^ fpSign b) = true then -((fpMag a * fpMag b : Nat) : Int) else ((fpMag a * fpMag b : Nat) : Int))
      = fpUnits a * fpUnits b := by
  unfold fpUnits
  cases fpSign a <;> cases fpSign b <;> simp

section

variable {a b : F64} (ha : isFinite a = true) (hb : isFinite b = true)

include ha hb

theorem nearestEven_fadd : NearestEven (fpUnits a + fpUnits b) 1 (fadd a b) := by
  have hround := nearestEven_round
    (if fpUnits a + fpUnits b = 0 then fpSign a && fpSign b else decide (fpUnits a + fpUnits b < 0))
    (fpUnits a + fpUnits b).natAbs 1 one_pos
  rwa [fadd_signed, ← fadd_finite ha hb] at hround

theorem nearestEven_fmul : NearestEven (fpUnits a * fpUnits b) (2 ^ 1074) (fmul a b) := by
  have hround := nearestEven_round (fpSign a ^^ fpSign b) (fpMag a * fpMag b) (2 ^ 1074) (by positivity)
  rwa [fmul_signed, ← fmul_finite ha hb] at hround

theorem fadd_near (h : |fpReal a + fpReal b| < 64) : |fpReal (fadd a b) - (fpReal a + fpReal b)| ≤ 1 / 2 ^ 47 := by
  refine (nearestEven_fadd ha hb).near one_pos ?_ h
  rw [fpReal, fpReal, Nat.cast_one, Int.cast_add]
  field_simp

theorem fmul_near (h : |fpReal a * fpReal b| < 64) : |fpReal (fmul a b) - fpReal a * fpReal b| ≤ 1 / 2 ^ 47 := by
  refine (nearestEven_fmul ha hb).near (by positivity) ?_ h
  rw [fpReal, fpReal, Int.cast_mul, Nat.cast_pow, Nat.cast_ofNat]
  field_simp

theorem fpSign_fmul_of_pos (hsa : fpSign a = false) (hsb : fpSign b = false) : fpSign (fmul a b) = false := by
  rw [fmul_finite ha hb, fpSign_pack _ (roundMag_lt _ _), hsa, hsb]
  rfl

end

end Sys2Proof.Machine
end

section
/-! PROOFS. The waveform against the real formula: the error of the angles, the sines, the products and the sums, for
every admissible sine (42_waveform.md R97, R99, R109). -/

namespace Sys2Proof.Machine

/-! ### Errors through the primitives -/

section

variable {a b : F64} {A B ea eb : ℝ}

theorem isFinite_of_near (h : |fpReal a - A| ≤ 1) (hA : |A| ≤ 63) : isFinite a = true := by
  refine isFinite_of_abs_fpReal_lt ?_
  have h64 : |fpReal a| ≤ 2 ^ 6 := by linarith [abs_sub_abs_le_abs_sub (fpReal a) A]
  exact h64.trans_lt (pow_lt_pow_right₀ one_lt_two (by norm_num))

variable (ha : |fpReal a - A| ≤ ea) (hb : |fpReal b - B| ≤ eb) (hea : ea ≤ 1) (heb : eb ≤ 1) (hA : |A| ≤ 7)

include ha hb hea heb hA

/-- A rounded sum of operands that are near adds one rounding to their errors. -/
theorem fadd_near_of_near (hB : |B| ≤ 7) : |fpReal (fadd a b) - (A + B)| ≤ ea + eb + 1 / 2 ^ 47 := by
  have hfa : isFinite a = true := isFinite_of_near (ha.trans hea) (by linarith)
  have hfb : isFinite b = true := isFinite_of_near (hb.trans heb) (by linarith)
  have hexact : |fpReal a + fpReal b - (A + B)| ≤ ea + eb := by
    rw [add_sub_add_comm]
    exact (abs_add_le _ _).trans (add_le_add ha hb)
  have hsum : |fpReal a + fpReal b| < 64 := by
    linarith [abs_sub_abs_le_abs_sub (fpReal a + fpReal b) (A + B), abs_add_le A B]
  linarith [fadd_near hfa hfb hsum, abs_sub_le (fpReal (fadd a b)) (fpReal a + fpReal b) (A + B)]

/-- A rounded product of factors that are near. -/
theorem fmul_near_of_near (hB : |B| ≤ 6.5) :
    |fpReal (fmul a b) - A * B| ≤ |A| * eb + ea * (|B| + 1) + 1 / 2 ^ 47 := by
  have hfa : isFinite a = true := isFinite_of_near (ha.trans hea) (by linarith)
  have hfb : isFinite b = true := isFinite_of_near (hb.trans heb) (by linarith)
  have ha8 : |fpReal a| ≤ 8 := by linarith [abs_sub_abs_le_abs_sub (fpReal a) A]
  have hb1 : |fpReal b| ≤ |B| + 1 := by linarith [abs_sub_abs_le_abs_sub (fpReal b) B]
  have hexact : |fpReal a * fpReal b - A * B| ≤ |A| * eb + ea * (|B| + 1) := by
    have hsplit : fpReal a * fpReal b - A * B = A * (fpReal b - B) + (fpReal a - A) * fpReal b := by ring
    rw [hsplit]
    refine (abs_add_le _ _).trans ?_
    rw [abs_mul, abs_mul]
    have hea0 : 0 ≤ ea := (abs_nonneg _).trans ha
    gcongr
  have hprod : |fpReal a * fpReal b| < 64 := by
    rw [abs_mul]
    nlinarith [abs_nonneg (fpReal a), abs_nonneg (fpReal b)]
  linarith [fmul_near hfa hfb hprod, abs_sub_le (fpReal (fmul a b)) (fpReal a * fpReal b) (A * B)]

end

/-! ### The angles -/

/-- A harmonic's number (42_waveform.md R97). -/
def Harmonic.number : Harmonic → Nat
  | .k1 => 1
  | .k2 => 2
  | .k3 => 3
  | .k4 => 4
  | .k5 => 5
  | .k6 => 6

theorem fpReal_one : fpReal fpOne = 1 := by
  rw [fpReal_eq_div (m := 1) 0 (by decide +kernel)]
  norm_num

theorem fpReal_twoPi_near : |fpReal fpTwoPi - 2 * Real.pi| ≤ 1 / 10 ^ 15 := by
  have hval : fpReal fpTwoPi = (0x1921FB54442D18 : Int) / 2 ^ 50 := fpReal_eq_div 50 (by decide +kernel)
  have hlo := Real.pi_gt_d20
  have hhi := Real.pi_lt_d20
  rw [hval, abs_le]
  norm_num at hlo hhi ⊢
  constructor <;> linarith

/-- A phase in range, as a real number. -/
theorem fpReal_of_phaseInRange {p : F64} (h : phaseInRange p = true) : 0 ≤ fpReal p ∧ fpReal p ≤ 1 := by
  obtain ⟨hs, hlt⟩ := (phaseInRange_iff p).mp h
  refine ⟨fpReal_nonneg_of_sign_false hs, ?_⟩
  rw [← fpReal_one, fpReal, fpReal]
  exact div_le_div_of_nonneg_right (by exact_mod_cast hlt.le) (by positivity)

/-- x is near the real angle X: no sign bit, as P4 asks (42_waveform.md R104), and within 10^-13. -/
structure AngleNear (x : F64) (X : ℝ) : Prop where
  sign : fpSign x = false
  near : |fpReal x - X| ≤ 1 / 10 ^ 13

theorem two_pi_mul_mem {p : ℝ} (h : 0 ≤ p ∧ p ≤ 1) : 0 ≤ 2 * Real.pi * p ∧ 2 * Real.pi * p ≤ 6.3 := by
  obtain ⟨hp0, hp1⟩ := h
  have hpi := Real.pi_pos
  exact ⟨by positivity, by nlinarith [Real.pi_lt_d2]⟩

/-- The first angle, `fmul(TWO_PI, phase)`. -/
theorem theta_near {p : F64} (hp : phaseInRange p = true) : fpSign (fmul fpTwoPi p) = false ∧
    |fpReal (fmul fpTwoPi p) - 2 * Real.pi * fpReal p| ≤ 1 / 10 ^ 14 := by
  obtain ⟨hp0, hp1⟩ := fpReal_of_phaseInRange hp
  have hself : |fpReal p - fpReal p| ≤ 0 := by simp
  have habs : |fpReal p| ≤ 1 := by rwa [abs_of_nonneg hp0]
  have hpi : |2 * Real.pi| ≤ 7 := by
    rw [abs_of_pos Real.two_pi_pos]
    linarith [Real.pi_lt_d2]
  refine ⟨fpSign_fmul_of_pos (by decide) (isFinite_of_phaseInRange hp) (by decide) ((phaseInRange_iff p).mp hp).1, ?_⟩
  have h := fmul_near_of_near fpReal_twoPi_near hself (by norm_num) (by norm_num) hpi (by linarith)
  norm_num at h ⊢
  linarith

/-- Every angle of a recipe is near the real angle of its harmonic. -/
theorem harmonicArg_near {p : F64} (hp : phaseInRange p = true) (k : Harmonic) :
    AngleNear (harmonicArg (fmul fpTwoPi p) k) (k.number * (2 * Real.pi * fpReal p)) := by
  obtain ⟨hsign, hnear⟩ := theta_near hp
  obtain ⟨h0, h6⟩ := two_pi_mul_mem (fpReal_of_phaseInRange hp)
  have htheta : |2 * Real.pi * fpReal p| ≤ 6.5 := by
    rw [abs_of_nonneg h0]
    linarith
  have hfin : isFinite (fmul fpTwoPi p) = true := isFinite_of_near (hnear.trans (by norm_num)) (by linarith)
  have hscaled {n : F64} {m : Nat} (hn : isFinite n = true) (hs : fpSign n = false) (hval : fpUnits n = m * 2 ^ 1074)
      (hm : m ≤ 6) : AngleNear (fmul n (fmul fpTwoPi p)) (m * (2 * Real.pi * fpReal p)) := by
    refine ⟨fpSign_fmul_of_pos hn hfin hs hsign, ?_⟩
    have hreal : |fpReal n - m| ≤ 0 := by
      rw [fpReal_eq_div (m := m) 0 (by rw [pow_zero, mul_one, hval])]
      simp
    have hm' : (m : ℝ) ≤ 6 := by exact_mod_cast hm
    have habs : |(m : ℝ)| = m := Nat.abs_cast m
    have h := fmul_near_of_near hreal hnear (by norm_num) (by norm_num) (by linarith) htheta
    rw [habs] at h
    norm_num at h ⊢
    linarith
  cases k with
  | k1 => exact ⟨hsign, by rw [Harmonic.number, Nat.cast_one, one_mul]; exact hnear.trans (by norm_num)⟩
  | k2 => exact hscaled (m := 2) (by decide) (by decide) (by decide +kernel) (by decide)
  | k3 => exact hscaled (m := 3) (by decide) (by decide) (by decide +kernel) (by decide)
  | k4 => exact hscaled (m := 4) (by decide) (by decide) (by decide +kernel) (by decide)
  | k5 => exact hscaled (m := 5) (by decide) (by decide) (by decide +kernel) (by decide)
  | k6 => exact hscaled (m := 6) (by decide) (by decide) (by decide +kernel) (by decide)

theorem Harmonic.number_le (k : Harmonic) : k.number ≤ 6 := by
  cases k <;> decide

/-- The real sine of a harmonic at a phase. -/
noncomputable def realSine (p : ℝ) (k : Harmonic) : ℝ := Real.sin (k.number * (2 * Real.pi * p))

theorem abs_realSine_le (p : ℝ) (k : Harmonic) : |realSine p k| ≤ 1 := Real.abs_sin_le_one _

theorem abs_weighted_realSine_le {W : ℝ} (hW0 : 0 ≤ W) (hW1 : W ≤ 5 / 10) (p : ℝ) (k : Harmonic) :
    |W * realSine p k| ≤ 1 := by
  rw [abs_mul, abs_of_nonneg hW0]
  nlinarith [abs_realSine_le p k, abs_nonneg (realSine p k)]

/-! ### The real formula (42_waveform.md R97) -/

/-- The second weight of a recipe. -/
noncomputable def realWeight2 : Instrument → ℝ
  | .piano => 3 / 10
  | .violin => 4 / 10
  | .trumpet => 5 / 10

/-- The third weight of a recipe. -/
noncomputable def realWeight3 : Instrument → ℝ
  | .piano => 2 / 10
  | .violin => 3 / 10
  | .trumpet => 4 / 10

/-- The real formula: the harmonics of the recipe, with the weights not rounded. -/
noncomputable def realWaveform (c : Instrument) (p : ℝ) : ℝ :=
  realSine p (recipe c).h1 + realWeight2 c * realSine p (recipe c).h2 + realWeight3 c * realSine p (recipe c).h3

theorem realWeights_mem (c : Instrument) :
    0 ≤ realWeight2 c ∧ realWeight2 c ≤ 5 / 10 ∧ 0 ≤ realWeight3 c ∧ realWeight3 c ≤ 4 / 10 := by
  cases c <;> norm_num [realWeight2, realWeight3]

theorem fpReal_w02_near : |fpReal fpW02 - 2 / 10| ≤ 1 / 2 ^ 53 := by
  rw [fpReal_eq_div (m := 0x1999999999999A) 55 (by decide +kernel), abs_le]
  norm_num

theorem fpReal_w03_near : |fpReal fpW03 - 3 / 10| ≤ 1 / 2 ^ 53 := by
  rw [fpReal_eq_div (m := 0x13333333333333) 54 (by decide +kernel), abs_le]
  norm_num

theorem fpReal_w04_near : |fpReal fpW04 - 4 / 10| ≤ 1 / 2 ^ 53 := by
  rw [fpReal_eq_div (m := 0x1999999999999A) 54 (by decide +kernel), abs_le]
  norm_num

theorem fpReal_w05_near : |fpReal fpW05 - 5 / 10| ≤ 1 / 2 ^ 53 := by
  rw [fpReal_eq_div (m := 1) 1 (by decide +kernel), abs_le]
  norm_num

/-- The weights of each recipe are the nearest patterns to the real ones (43_numerics.md R122). -/
theorem weights_near (c : Instrument) : |fpReal (recipe c).w2 - realWeight2 c| ≤ 1 / 2 ^ 53 ∧
    |fpReal (recipe c).w3 - realWeight3 c| ≤ 1 / 2 ^ 53 := by
  cases c with
  | piano => exact ⟨fpReal_w03_near, fpReal_w02_near⟩
  | violin => exact ⟨fpReal_w04_near, fpReal_w03_near⟩
  | trumpet => exact ⟨fpReal_w05_near, fpReal_w04_near⟩

/-! ### The sines and the waveform of an admissible sine -/

/-- How far an admissible sine of a rounded angle may be from the real sine: `EPS_SIN` and the angle's error. -/
noncomputable def sineError : ℝ := 1 / 2 ^ 33 + 1 / 10 ^ 13

section

variable {sin : F64 → F64} {eps : ℝ} (hsin : SineAdmissible sin eps) {p : F64} (hp : phaseInRange p = true)

include hsin hp

/-- P4 at the rounded angle, and the sine moves no more than its angle. -/
theorem sine_near (k : Harmonic) :
    |fpReal (sin (harmonicArg (fmul fpTwoPi p) k)) - realSine (fpReal p) k| ≤ sineError := by
  obtain ⟨hsign, hnear⟩ := harmonicArg_near hp k
  obtain ⟨h0, h6⟩ := two_pi_mul_mem (fpReal_of_phaseInRange hp)
  have hk : (k.number : ℝ) ≤ 6 := by exact_mod_cast k.number_le
  have hangle : |k.number * (2 * Real.pi * fpReal p)| ≤ 37.8 := by
    rw [abs_of_nonneg (by positivity)]
    nlinarith
  rw [realSine]
  generalize k.number * (2 * Real.pi * fpReal p) = X at hnear hangle ⊢
  generalize harmonicArg (fmul fpTwoPi p) k = x at hsign hnear ⊢
  have hnear' : |fpReal x - X| ≤ 0.1 := hnear.trans (by norm_num)
  have hfin : isFinite x = true := isFinite_of_near (by linarith) (by linarith)
  have h38 : fpReal x ≤ 38 := by linarith [le_abs_self (fpReal x - X), le_abs_self X]
  have hunits : 0 ≤ fpUnits x := by
    rw [fpUnits_of_sign_false hsign]
    exact Int.natCast_nonneg _
  have haccurate : |fpReal (sin x) - Real.sin (fpReal x)| ≤ eps := hsin.accuracy x hfin hunits h38
  have hlipschitz := Real.abs_sin_sub_sin_le (fpReal x) X
  have htriangle := abs_sub_le (fpReal (sin x)) (Real.sin (fpReal x)) (Real.sin X)
  rw [sineError]
  linarith [hsin.eps_le]

/-- A weight's product with a sine, near the real product. -/
theorem weighted_sine_near {w : F64} {W : ℝ} (hw : |fpReal w - W| ≤ 1 / 2 ^ 53) (hW0 : 0 ≤ W) (hW1 : W ≤ 5 / 10)
    (k : Harmonic) : |fpReal (fmul w (sin (harmonicArg (fmul fpTwoPi p) k))) - W * realSine (fpReal p) k| ≤
      W * sineError + 1 / 10 ^ 14 := by
  have habs : |W| = W := abs_of_nonneg hW0
  have hs := abs_realSine_le (fpReal p) k
  have h := fmul_near_of_near hw (sine_near hsin hp k) (by norm_num) (by norm_num [sineError]) (by linarith)
    (by linarith)
  rw [habs] at h
  norm_num at h ⊢
  linarith

/-- The rule of R109 for every admissible sine: the sines' errors, by weights of 1.9 at most in sum, and four
roundings. -/
theorem waveform_near (c : Instrument) : |fpReal (waveform sin c p) - realWaveform c (fpReal p)| ≤ 23 / 10 ^ 11 := by
  obtain ⟨hw2, hw3⟩ := weights_near c
  obtain ⟨h20, h21, h30, h31⟩ := realWeights_mem c
  obtain ⟨herr0, herr1⟩ : 0 ≤ sineError ∧ sineError ≤ 1 / 10 := by norm_num [sineError]
  have hbudget : (1 + 5 / 10 + 4 / 10) * sineError + 4 / 10 ^ 14 ≤ 23 / 10 ^ 11 := by norm_num [sineError]
  have hS1 := abs_realSine_le (fpReal p) (recipe c).h1
  have hS2 := abs_weighted_realSine_le h20 h21 (fpReal p) (recipe c).h2
  have hS3 := abs_weighted_realSine_le h30 (by linarith) (fpReal p) (recipe c).h3
  have hsum := fadd_near_of_near (sine_near hsin hp (recipe c).h1)
    (weighted_sine_near hsin hp hw2 h20 h21 (recipe c).h2) (by linarith) (by nlinarith) (by linarith) (by linarith)
  have hall := fadd_near_of_near hsum (weighted_sine_near hsin hp hw3 h30 (by linarith) (recipe c).h3) (by nlinarith)
    (by nlinarith) ((abs_add_le _ _).trans (by linarith)) (by linarith)
  have h2 := mul_le_mul_of_nonneg_right h21 herr0
  have h3 := mul_le_mul_of_nonneg_right h31 herr0
  refine hall.trans (le_trans ?_ hbudget)
  norm_num at h2 h3 ⊢
  linarith

end

/-- Settles O45: `waveform_near`, the engine's sine being admissible; the rule's formula is `realWaveform`. -/
theorem waveformIsNearTheRealFormula : Obligations.WaveformIsNearTheRealFormula := by
  intro c phase hphase
  have h := waveform_near sinUnit_admissible hphase c
  simp only [realWaveform, realSine, fpReal] at h
  cases c <;> simpa only [recipe, Harmonic.number, realWeight2, realWeight3, Nat.cast_one, Nat.cast_ofNat] using h

/-- The real formula of Piano at a quarter of a cycle: sin(pi/2) + 0.3 sin(pi) + 0.2 sin(3 pi/2). -/
theorem realWaveform_piano_quarter : realWaveform .piano (1 / 4) = 8 / 10 := by
  have h1 : Real.sin (1 * (2 * Real.pi * (1 / 4))) = 1 := by
    rw [show 1 * (2 * Real.pi * (1 / 4)) = Real.pi / 2 by ring, Real.sin_pi_div_two]
  have h2 : Real.sin (2 * (2 * Real.pi * (1 / 4))) = 0 := by
    rw [show 2 * (2 * Real.pi * (1 / 4)) = Real.pi by ring, Real.sin_pi]
  have h3 : Real.sin (3 * (2 * Real.pi * (1 / 4))) = -1 := by
    rw [show 3 * (2 * Real.pi * (1 / 4)) = Real.pi / 2 + Real.pi by ring, Real.sin_add_pi, Real.sin_pi_div_two]
  simp only [realWaveform, realSine, recipe, Harmonic.number, realWeight2, realWeight3, Nat.cast_one, Nat.cast_ofNat,
    h1, h2, h3]
  norm_num

/-- Settles O46: the phase 0.25 of `waveform_near`, for any admissible sine. -/
theorem pianoAtQuarterCycleIsNearEightTenths : Obligations.PianoAtQuarterCycleIsNearEightTenths := by
  have hquarter : fpReal 0x3FD0000000000000 = 1 / 4 := by
    rw [fpReal_eq_div (m := 1) 2 (by decide +kernel)]
    norm_num
  have hnear (sin : F64 → F64) (eps : ℝ) (hsin : SineAdmissible sin eps) :
      |fpReal (waveform sin .piano 0x3FD0000000000000) - 8 / 10| ≤ 1 / 10 ^ 9 := by
    have h := waveform_near hsin (p := 0x3FD0000000000000) (by decide +kernel) .piano
    rw [hquarter, realWaveform_piano_quarter] at h
    exact h.trans (by norm_num)
  exact ⟨hnear, hnear sinUnit _ sinUnit_admissible⟩

end Sys2Proof.Machine
end

section
/-! PROOFS. The rounding of each primitive, and the NaNs they answer (43_numerics.md R111 to R115, R118). -/

namespace Sys2Proof.Machine

/-! ### NaN operands -/

theorem isNaN_nanResult (op : FpOp) (a b : F64) : isNaN (nanResult op a b) = true := isNaN_toNaN _

theorem toNaN_of_isNaN {x : F64} (h : isNaN x = true) : toNaN x = x := if_pos h

/-- Settles O54: a draw is a NaN whatever its bits, and a NaN is drawn as it stands. -/
theorem nanResultsAreUnspecifiedNans : Obligations.NanResultsAreUnspecifiedNans :=
  ⟨isNaN_nanResult, fun _ => toNaN_of_isNaN⟩

theorem isNaN_fadd {a b : F64} (h : isNaN a = true ∨ isNaN b = true) : isNaN (fadd a b) = true := by
  rw [fadd, if_pos ((Bool.or_eq_true _ _).mpr h)]
  exact isNaN_nanResult .add a b

theorem isNaN_fmul {a b : F64} (h : isNaN a = true ∨ isNaN b = true) : isNaN (fmul a b) = true := by
  rw [fmul, if_pos ((Bool.or_eq_true _ _).mpr h)]
  exact isNaN_nanResult .mul a b

theorem isNaN_fsub {a b : F64} (h : isNaN a = true ∨ isNaN b = true) : isNaN (fsub a b) = true := by
  cases hb : isNaN b with
  | true =>
    rw [fsub, if_pos hb]
    exact isNaN_nanResult .sub a b
  | false =>
    rw [fsub_eq hb]
    exact isNaN_fadd (.inl (h.resolve_right (Bool.eq_false_iff.mp hb)))

/-! ### Nearest, ties to even -/

/-- A quotient in lower terms has the same nearest patterns. -/
theorem NearestEven.of_mul_right {num : Int} {den k : Nat} {r : F64} (hk : 0 < k)
    (h : NearestEven (num * k) (den * k) r) : NearestEven num den r := by
  have hscale (x : F64) : |num * k - ((den * k : Nat) : Int) * fpUnits x| = |num - den * fpUnits x| * k := by
    rw [Nat.cast_mul, mul_right_comm, ← sub_mul, abs_mul, Nat.abs_cast]
  obtain ⟨hnan, hnear⟩ := h
  refine ⟨hnan, fun c hc => ?_⟩
  obtain ⟨hle, htie⟩ := hnear c hc
  rw [hscale, hscale] at hle htie
  exact ⟨le_of_mul_le_mul_right hle (by exact_mod_cast hk), fun heq => htie (by rw [heq])⟩

theorem isFinite_fneg {x : F64} (h : isFinite x = true) : isFinite (fneg x) = true :=
  isFinite_of_low_le h (fpLow_fneg x).le

theorem nearestEven_fsub {a b : F64} (ha : isFinite a = true) (hb : isFinite b = true) :
    NearestEven (fpUnits a - fpUnits b) 1 (fsub a b) := by
  rw [fsub_eq (not_isNaN_of_isFinite hb), sub_eq_add_neg, ← fpUnits_fneg]
  exact nearestEven_fadd ha (isFinite_fneg hb)

theorem fpMag_fpFS : fpMag fpFS = 44100 * 2 ^ 1074 := by decide +kernel

/-- A sign and a scaled magnitude make the scaled value. -/
theorem signed_fpMag_mul (a : F64) (k : Nat) :
    (if fpSign a = true then -((fpMag a * k : Nat) : Int) else ((fpMag a * k : Nat) : Int)) = fpUnits a * k := by
  unfold fpUnits
  cases fpSign a <;> simp

theorem nearestEven_fdivFS {a : F64} (ha : isFinite a = true) : NearestEven (fpUnits a) 44100 (fdivFS a) := by
  have hround := nearestEven_round (fpSign a) (fpMag a * 2 ^ 1074) (44100 * 2 ^ 1074) (by positivity)
  rw [signed_fpMag_mul, ← fpMag_fpFS, ← fdivFS_finite ha, fpMag_fpFS] at hround
  exact hround.of_mul_right (by positivity)

/-- Settles O47: each primitive packs a sign with a rounded magnitude (`nearestEven_round`). -/
theorem arithmeticRoundsToNearestEven : Obligations.ArithmeticRoundsToNearestEven :=
  fun _ _ ha hb => ⟨nearestEven_fadd ha hb, nearestEven_fsub ha hb, nearestEven_fmul ha hb, nearestEven_fdivFS ha⟩

/-! ### Rounding to zero -/

theorem lowMag_one : lowMag 1 = 1 := by decide

/-- A magnitude of at most half a unit rounds to zero, the half by the tie. -/
theorem roundMag_eq_zero {num den : Nat} (hd : 0 < den) (h : 2 * num ≤ den) : roundMag num den = 0 := by
  obtain ⟨floor, up, heq, hlo, hhi, hup, -⟩ := roundMag_cases num den hd
  obtain rfl : floor = 0 := by
    by_contra hpos
    have hone : den * lowMag 1 ≤ den * lowMag floor :=
      Nat.mul_le_mul_left _ (lowMag_strictMono.monotone (Nat.one_le_iff_ne_zero.mpr hpos))
    rw [lowMag_one] at hone
    omega
  rw [Nat.zero_add, lowMag_one, lowMag_zero] at hup
  cases up with
  | true =>
    obtain ⟨hge, htie⟩ := hup rfl
    omega
  | false => rw [heq, if_neg Bool.false_ne_true, Nat.zero_min]

theorem isZero_pack_zero (s : Bool) : isZero (fpPack s 0) = true := by cases s <;> decide

theorem isFinite_of_isZero {x : F64} (h : isZero x = true) : isFinite x = true :=
  isFinite_of_low_le (y := fpZero) (by decide) ((isZero_iff x).mp h).le

theorem not_isNaN_of_isInf {x : F64} (h : isInf x = true) : isNaN x = false :=
  (not_isNaN_iff x).mpr ((isInf_iff x).mp h).le

end Sys2Proof.Machine
end

section
/-! PROOFS. Addition and subtraction case by case (43_numerics.md R112, R113). -/

namespace Sys2Proof.Machine

/-- An exact sum of zero has the sign bit set only if both operands have. -/
theorem fadd_of_sum_eq_zero {a b : F64} (ha : isFinite a = true) (hb : isFinite b = true)
    (h : fpUnits a + fpUnits b = 0) : fadd a b = fpPack (fpSign a && fpSign b) 0 := by
  rw [fadd_finite ha hb, if_pos h, h, Int.natAbs_zero, roundMag_eq_zero one_pos (Nat.zero_le _)]

/-- Two negative patterns of sum zero are both -0.0. -/
theorem eq_neg_zero_of_sum_eq_zero {a b : F64} (hs : (fpSign a && fpSign b) = true)
    (h : fpUnits a + fpUnits b = 0) : a = 0x8000000000000000 ∧ b = 0x8000000000000000 := by
  obtain ⟨hsa, hsb⟩ := (Bool.and_eq_true _ _).mp hs
  have hna : fpUnits a = -(fpMag a : Int) := by rw [fpUnits, if_pos hsa]
  have hnb : fpUnits b = -(fpMag b : Int) := by rw [fpUnits, if_pos hsb]
  exact ⟨eq_neg_zero_of_fpUnits_eq_zero hsa (by omega), eq_neg_zero_of_fpUnits_eq_zero hsb (by omega)⟩

/-- An exact sum of zero is +0.0, but for (-0.0) + (-0.0). -/
theorem fadd_eq_zero {a b : F64} (ha : isFinite a = true) (hb : isFinite b = true) (h : fpUnits a + fpUnits b = 0)
    (hne : ¬ (a = 0x8000000000000000 ∧ b = 0x8000000000000000)) : fadd a b = fpZero := by
  rw [fadd_of_sum_eq_zero ha hb h, Bool.eq_false_iff.mpr (mt (eq_neg_zero_of_sum_eq_zero · h) hne)]
  rfl

/-- An infinity as first operand is the sum, unless the second is the opposite infinity. -/
theorem fadd_of_isInf {a b : F64} (ha : isInf a = true) (hb : isNaN b = false)
    (h : isInf b = true → fpSign a = fpSign b) : fadd a b = a := by
  have hsame : ¬ (isInf b && fpSign a != fpSign b) = true := by simpa using h
  rw [fadd, not_isNaN_of_isInf ha, hb, Bool.or_false, if_neg Bool.false_ne_true, if_pos ha, if_neg hsame]

theorem isNaN_fadd_opposite {a : F64} (h : isInf a = true) : isNaN (fadd a (fneg a)) = true := by
  have hneg : isInf (fneg a) = true := by rwa [isInf_iff, fpLow_fneg, ← isInf_iff]
  have hopp : (isInf (fneg a) && fpSign a != fpSign (fneg a)) = true := by rw [hneg, fpSign_fneg]; simp
  rw [fadd, not_isNaN_of_isInf h, not_isNaN_of_isInf hneg, Bool.or_false, if_neg Bool.false_ne_true, if_pos h,
    if_pos hopp]
  exact isNaN_nanResult .add a (fneg a)

/-- Settles O48: one lemma for each case of the operands. -/
theorem additionLaws : Obligations.AdditionLaws :=
  ⟨fun _ _ => nearestEven_fadd, fun _ _ => fadd_eq_zero, by decide, fun _ => fadd_zero_left, by decide,
    fun _ _ ha hb => ⟨fadd_of_isInf ha (not_isNaN_of_isFinite hb) fun hinf =>
      absurd hinf (Bool.eq_false_iff.mp (not_isInf_of_isFinite hb)), fadd_of_isFinite_of_isInf hb ha⟩,
    fun _ ha => ⟨fadd_of_isInf ha (not_isNaN_of_isInf ha) fun _ => rfl, isNaN_fadd_opposite ha⟩,
    fun _ _ => isNaN_fadd⟩

theorem getLsbD_fneg (b : F64) (i : Nat) :
    (fneg b).getLsbD i = if i = 63 then !b.getLsbD i else b.getLsbD i := by
  have hmask : 0x8000000000000000#64 = BitVec.twoPow 64 63 := by decide
  rw [fneg, hmask, BitVec.getLsbD_xor, BitVec.getLsbD_twoPow]
  split
  case isTrue h => simp [h]
  case isFalse h => rw [decide_eq_false (Ne.symm h), Bool.and_false, Bool.xor_false]

theorem fsub_self {x : F64} (h : isFinite x = true) : fsub x x = fpZero := by
  have hsum : fpUnits x + fpUnits (fneg x) = 0 := by rw [fpUnits_fneg, add_neg_cancel]
  rw [fsub_eq (not_isNaN_of_isFinite h), fadd_of_sum_eq_zero h (isFinite_fneg h) hsum, fpSign_fneg,
    Bool.and_not_self]
  rfl

/-- Settles O49: `getLsbD_fneg` for the negation, the rest from `fadd`. -/
theorem subtractionLaws : Obligations.SubtractionLaws :=
  ⟨fun b i _ => getLsbD_fneg b i, fun _ _ => fsub_eq, fun _ _ => isNaN_fsub, fun _ => fsub_self⟩

end Sys2Proof.Machine
end

section
/-! PROOFS. Multiplication, and division by the sample rate, case by case (43_numerics.md R114, R115). -/

namespace Sys2Proof.Machine

theorem fpSign_fmul {a b : F64} (ha : isFinite a = true) (hb : isFinite b = true) :
    fpSign (fmul a b) = (fpSign a ^^ fpSign b) := by
  rw [fmul_finite ha hb, fpSign_pack _ (roundMag_lt _ _)]

/-- A product of finite operands one of which is a zero is a zero. -/
theorem isZero_fmul {a b : F64} (ha : isFinite a = true) (hb : isFinite b = true)
    (h : isZero a = true ∨ isZero b = true) : isZero (fmul a b) = true := by
  have hprod : fpMag a * fpMag b = 0 := by
    rw [isZero_iff, isZero_iff, ← fpMag_eq_zero_iff, ← fpMag_eq_zero_iff] at h
    exact Nat.mul_eq_zero.mpr h
  rw [fmul_finite ha hb, hprod, roundMag_eq_zero (by positivity) (Nat.zero_le _)]
  exact isZero_pack_zero _

section

variable {a b : F64} (ha : isNaN a = false) (hb : isNaN b = false) (hinf : isInf a = true ∨ isInf b = true)

include ha hb hinf

/-- An infinity times a non-zero value is the infinity of the product sign. -/
theorem fmul_of_isInf (hza : isZero a = false) (hzb : isZero b = false) :
    fmul a b = fpPack (fpSign a ^^ fpSign b) infLow := by
  rw [fmul, ha, hb, Bool.or_false, if_neg Bool.false_ne_true, if_pos ((Bool.or_eq_true _ _).mpr hinf), hza, hzb,
    Bool.or_false, if_neg Bool.false_ne_true]

theorem isNaN_fmul_of_isInf_of_isZero (hz : isZero a = true ∨ isZero b = true) : isNaN (fmul a b) = true := by
  rw [fmul, ha, hb, Bool.or_false, if_neg Bool.false_ne_true, if_pos ((Bool.or_eq_true _ _).mpr hinf),
    if_pos ((Bool.or_eq_true _ _).mpr hz)]
  exact isNaN_nanResult .mul a b

theorem isInf_fmul (hza : isZero a = false) (hzb : isZero b = false) :
    isInf (fmul a b) = true ∧ fpSign (fmul a b) = (fpSign a ^^ fpSign b) := by
  rw [fmul_of_isInf ha hb hinf hza hzb]
  exact ⟨(isInf_iff _).mpr (fpLow_pack _ infLow_lt), fpSign_pack _ infLow_lt⟩

end

theorem not_isZero_of_isInf {x : F64} (h : isInf x = true) : isZero x = false := by
  rw [← Bool.not_eq_true, isZero_iff, (isInf_iff x).mp h]
  decide

/-- Settles O50: finite operands, an infinity with a zero or without, and a NaN. -/
theorem multiplicationLaws : Obligations.MultiplicationLaws := by
  refine ⟨fun a b ha hb => ⟨nearestEven_fmul ha hb, fpSign_fmul ha hb⟩, fun a b ha hz => ?_,
    fun a b ha hb hz => ?_, fun a b ha hz => ?_, fun a b => isNaN_fmul⟩
  · have hb := isFinite_of_isZero hz
    exact ⟨isZero_fmul ha hb (.inr hz), isZero_fmul hb ha (.inl hz)⟩
  · have hna := not_isNaN_of_isInf ha
    have hza := not_isZero_of_isInf ha
    obtain ⟨hab, hsab⟩ := isInf_fmul hna hb (.inl ha) hza hz
    obtain ⟨hba, hsba⟩ := isInf_fmul hb hna (.inr ha) hz hza
    exact ⟨hab, hsab, hba, hsba⟩
  · have hna := not_isNaN_of_isInf ha
    have hnb := not_isNaN_of_isFinite (isFinite_of_isZero hz)
    exact ⟨isNaN_fmul_of_isInf_of_isZero hna hnb (.inl ha) (.inr hz),
      isNaN_fmul_of_isInf_of_isZero hnb hna (.inr ha) (.inl hz)⟩

/-- A dividend of at most half of 44100 units gives a zero: the half is a tie. -/
theorem isZero_fdivFS {a : F64} (h : fpMag a ≤ 22050) : isZero (fdivFS a) = true := by
  have hbound : fpMag 22050 = 22050 := by decide
  have hfin : isFinite a = true :=
    isFinite_of_low_le (y := 22050) (by decide) ((fpMag_le_iff _ _).mp (h.trans hbound.ge))
  have hhalf : 2 * (fpMag a * 2 ^ 1074) ≤ fpMag fpFS := by
    rw [fpMag_fpFS, ← Nat.mul_assoc]
    exact Nat.mul_le_mul_right _ (by omega)
  rw [fdivFS_finite hfin, roundMag_eq_zero (by decide) hhalf]
  exact isZero_pack_zero _

/-- Settles O51: finite dividends, those that round to zero, infinities and NaNs. -/
theorem divisionByTheSampleRateLaws : Obligations.DivisionByTheSampleRateLaws :=
  ⟨fun _ ha => ⟨nearestEven_fdivFS ha, fpSign_fdivFS (not_isNaN_of_isFinite ha)⟩, by decide, by decide,
    fun _ => isZero_fdivFS, fun _ => fdivFS_of_isInf, fun _ => isNaN_fdivFS⟩

end Sys2Proof.Machine
end

section
/-! PROOFS. The comparisons: values in order, the infinities at the ends (43_numerics.md R116, R117). -/

namespace Sys2Proof.Machine

/-- Settles O53: `feq_iff`, from `fpUnits_eq_iff`. -/
theorem equalityIsBitEqualityButForZeros : Obligations.EqualityIsBitEqualityButForZeros := feq_iff

theorem fge_iff (a b : F64) :
    fge a b = true ↔ isNaN a = false ∧ isNaN b = false ∧ fpUnits b ≤ fpUnits a := by
  simp [fge, and_assoc]

/-- +infinity (43_numerics.md R110). -/
def fpPosInf : F64 := 0x7FF0000000000000#64

/-- -infinity (43_numerics.md R110). -/
def fpNegInf : F64 := 0xFFF0000000000000#64

theorem fpUnits_posInf : fpUnits fpPosInf = fpMag fpPosInf := fpUnits_of_sign_false (by decide)

theorem fpUnits_negInf : fpUnits fpNegInf = -(fpMag fpPosInf : Int) := by
  rw [show fpNegInf = fneg fpPosInf from by decide, fpUnits_fneg, fpUnits_posInf]

/-- No value lies beyond the infinities. -/
theorem fpUnits_mem_infs {x : F64} (h : isNaN x = false) :
    fpUnits fpNegInf ≤ fpUnits x ∧ fpUnits x ≤ fpUnits fpPosInf := by
  have hmag : fpMag x ≤ fpMag fpPosInf := (fpMag_le_iff _ _).mpr ((not_isNaN_iff x).mp h)
  rw [← fpUnits_natAbs x] at hmag
  rw [fpUnits_negInf, fpUnits_posInf]
  omega

/-- A finite value lies below +infinity. -/
theorem fpUnits_lt_posInf {x : F64} (h : isFinite x = true) : fpUnits x < fpUnits fpPosInf := by
  obtain ⟨-, hle⟩ := fpUnits_mem_infs (not_isNaN_of_isFinite h)
  refine hle.lt_of_ne fun heq => ?_
  rcases (fpUnits_eq_iff _ _).mp heq with rfl | ⟨-, hz⟩
  · exact absurd h (by decide)
  · exact absurd hz (by decide)

/-- Only -infinity is as low as -infinity. -/
theorem fge_negInf_iff (b : F64) : fge fpNegInf b = true ↔ b = fpNegInf := by
  refine ⟨fun h => ?_, ?_⟩
  · obtain ⟨-, hb, hle⟩ := (fge_iff _ _).mp h
    obtain ⟨hge, -⟩ := fpUnits_mem_infs hb
    rcases (fpUnits_eq_iff _ _).mp (le_antisymm hle hge) with heq | ⟨-, hz⟩
    · exact heq
    · exact absurd hz (by decide)
  · rintro rfl
    exact (fge_iff _ _).mpr ⟨by decide, by decide, le_rfl⟩

theorem fge_of_isNaN {a b : F64} (h : isNaN a = true ∨ isNaN b = true) : fge a b = false := by
  rw [← Bool.not_eq_true, fge_iff]
  rintro ⟨ha, hb, -⟩
  simp [ha, hb] at h

/-- Settles O52: `fge_iff`, and where zeros and infinities stand in the order of values. -/
theorem greaterOrEqualLaws : Obligations.GreaterOrEqualLaws := by
  have hpos : isNaN fpPosInf = false := by decide
  have hneg : isNaN fpNegInf = false := by decide
  refine ⟨fun a b ha hb => ?_, fun a b ha hb => (fge_iff a b).mpr ?_, fun b hb => (fge_iff fpPosInf b).mpr ?_,
    fge_negInf_iff, fun a ha => ⟨?_, (fge_iff a fpNegInf).mpr ?_⟩, fun a b => fge_of_isNaN⟩
  · simp [fge_iff, not_isNaN_of_isFinite ha, not_isNaN_of_isFinite hb]
  · exact ⟨not_isNaN_of_isFinite (isFinite_of_isZero ha), not_isNaN_of_isFinite (isFinite_of_isZero hb),
      ((fpUnits_eq_iff b a).mpr (.inr ⟨hb, ha⟩)).le⟩
  · exact ⟨hpos, hb, (fpUnits_mem_infs hb).2⟩
  · rw [← Bool.not_eq_true]
    intro hge
    obtain ⟨-, -, hle⟩ := (fge_iff a fpPosInf).mp hge
    exact absurd hle (not_le.mpr (fpUnits_lt_posInf ha))
  · have hna := not_isNaN_of_isFinite ha
    exact ⟨hna, hneg, (fpUnits_mem_infs hna).1⟩

end Sys2Proof.Machine
end

section
/-! PROOFS. Where the primitives are exact, and the constants (43_numerics.md R122, R123). -/

namespace Sys2Proof.Machine

/-! ### Products with a power of two -/

/-- The double of a magnitude is a magnitude: of the next exponent, or a quotient doubled at the least spacing. -/
theorem exists_lowMag_double (p : Nat) : ∃ p', lowMag p' = 2 * lowMag p := by
  obtain ⟨shift, q, rfl, hq, hnorm⟩ := low_eq_grid p
  rw [lowMag_grid shift q hq.le hnorm]
  rcases Nat.lt_or_ge q (2 ^ 52) with hlt | hge
  · obtain rfl : shift = 0 := by omega
    exact ⟨0 * 2 ^ 52 + 2 * q, by rw [lowMag_grid 0 (2 * q) (by omega) (.inl rfl), Nat.mul_assoc]⟩
  · exact ⟨(shift + 1) * 2 ^ 52 + q, by rw [lowMag_grid (shift + 1) q hq.le (.inr hge), pow_succ]; ring⟩

theorem exists_lowMag_mul_pow (k p : Nat) : ∃ p', lowMag p' = 2 ^ k * lowMag p := by
  induction k with
  | zero => exact ⟨p, by rw [pow_zero, Nat.one_mul]⟩
  | succ k ih =>
    obtain ⟨p', hp'⟩ := ih
    obtain ⟨p'', hp''⟩ := exists_lowMag_double p'
    exact ⟨p'', by rw [hp'', hp', pow_succ', Nat.mul_assoc]⟩

/-- A value on the grid of magnitudes, extended past infinity, is not rounded unless it overflows. -/
theorem lowMag_roundMag_of_lt_infLow {den p : Nat} (hd : 0 < den) (h : roundMag (den * lowMag p) den < infLow) :
    lowMag (roundMag (den * lowMag p) den) = lowMag p := by
  rcases Nat.le_total p infLow with hle | hge
  · rw [roundMag_exact _ den p hd hle rfl]
  · have hinf : infLow ≤ roundMag (den * lowMag p) den :=
      le_roundMag _ den infLow hd le_rfl (Nat.mul_le_mul_left _ (lowMag_strictMono.monotone hge))
    exact absurd h (not_lt.mpr hinf)

/-- A finite product has finite factors, if the first is finite and not a zero. -/
theorem isFinite_of_isFinite_fmul {c x : F64} (hc : isFinite c = true) (hz : isZero c = false)
    (h : isFinite (fmul c x) = true) : isFinite x = true := by
  have hnan : isNaN x = false := Bool.eq_false_iff.mpr fun hx =>
    absurd (isNaN_fmul (.inr hx)) (Bool.eq_false_iff.mp (not_isNaN_of_isFinite h))
  refine (isFinite_or_isInf hnan).resolve_right fun hinf => ?_
  obtain ⟨hprod, -⟩ := isInf_fmul (not_isNaN_of_isFinite hc) hnan (.inr hinf) hz (not_isZero_of_isInf hinf)
  exact absurd hprod (Bool.eq_false_iff.mp (not_isInf_of_isFinite h))

/-- Multiplication by 2^k is exact unless it overflows. -/
theorem fpUnits_fmul_pow {c x : F64} {k : Nat} (hc : isFinite c = true) (hs : fpSign c = false)
    (hmag : fpMag c = 2 ^ 1074 * 2 ^ k) (h : isFinite (fmul c x) = true) :
    fpUnits (fmul c x) = 2 ^ k * fpUnits x := by
  have hz : isZero c = false := by
    rw [← Bool.not_eq_true, isZero_iff, ← fpMag_eq_zero_iff, hmag]
    positivity
  obtain ⟨p, hp⟩ := exists_lowMag_mul_pow k (fpLow x)
  have hprod : fpMag c * fpMag x = 2 ^ 1074 * lowMag p := by rw [hmag, hp, fpMag_eq, Nat.mul_assoc]
  have hmul := fmul_finite hc (isFinite_of_isFinite_fmul hc hz h)
  rw [hprod, hs, Bool.false_xor] at hmul
  have hlow : roundMag (2 ^ 1074 * lowMag p) (2 ^ 1074) < infLow := by
    rwa [hmul, isFinite_iff, fpLow_pack _ (roundMag_lt _ _)] at h
  rw [hmul, fpUnits_pack _ (roundMag_lt _ _), lowMag_roundMag_of_lt_infLow (by positivity) hlow, hp, fpUnits, fpMag_eq]
  split <;> push_cast <;> ring

/-! ### The difference from 1.0 -/

theorem fpUnits_fsub_one {p : F64} (h1 : fpUnits fpOne ≤ fpUnits p) (h2 : fpUnits p < fpUnits 0x4000000000000000) :
    fpUnits (fsub p fpOne) = fpUnits p - fpUnits fpOne := by
  have hfin : isFinite p = true := isFinite_of_fpUnits_lt (by decide) (fpUnits_one_pos.le.trans h1) h2
  rw [← wrapPhase_eq_fsub (not_isNaN_of_isFinite hfin) h1]
  exact fpUnits_wrapPhase_exact h1 h2

/-- Settles O55: the exact difference, doubled magnitudes, five evaluated quotients, and the value before 1.0. -/
theorem exactCases : Obligations.ExactCases :=
  ⟨fun _ => fpUnits_fsub_one,
    fun _ => fpUnits_fmul_pow (k := 1) (by decide) (by decide) (by decide +kernel),
    fun _ => fpUnits_fmul_pow (k := 2) (by decide) (by decide) (by decide +kernel),
    by decide, by decide, by decide, by decide, by decide, fun _ _ => fpUnits_le_predOne⟩

/-! ### The constants -/

/-- Settles O56: each decimal rounded is the constant's pattern. -/
theorem constantsAreTheNearestPatterns : Obligations.ConstantsAreTheNearestPatterns := by
  have h2 : literalBits (.decimal false 20 1) = 0x4000000000000000#64 := by decide
  have h3 : literalBits (.decimal false 30 1) = 0x4008000000000000#64 := by decide
  have h4 : literalBits (.decimal false 40 1) = 0x4010000000000000#64 := by decide
  have h5 : literalBits (.decimal false 50 1) = 0x4014000000000000#64 := by decide
  have h6 : literalBits (.decimal false 60 1) = 0x4018000000000000#64 := by decide
  refine ⟨by decide, by decide, by decide, by decide, by decide, by decide, by decide, by decide, fun theta => ?_⟩
  rw [h2, h3, h4, h5, h6]
  exact ⟨rfl, rfl, rfl, rfl, rfl⟩

end Sys2Proof.Machine
end

section
/-! PROOFS. Every command completes (60_exceptions.md R125), and within the premises every frame is finite
(60_exceptions.md R130, 70_reset_and_hazards.md R145). -/

namespace Sys2Proof.Machine

/-- Settles O8: each arm of the dispatch answers a next state, and a step is idle or one instruction. -/
theorem everyCommandAndEveryStepCompletes : Obligations.EveryCommandAndEveryStepCompletes :=
  ⟨exists_exec_eq_next, exists_step_eq_next⟩

/-! ### Magnitudes counted in steps of 2^e units

Bounds that are whole numbers of steps, fewer than 2^10 of them, are patterns themselves, so no rounding passes them. -/

/-- x is finite, of magnitude at most k steps of 2^e units of 2^-1074. -/
structure MagAtMost (k e : Nat) (x : F64) : Prop where
  finite : isFinite x = true
  mag    : fpMag x ≤ k * 2 ^ e

theorem MagAtMost.zero (e : Nat) : MagAtMost 0 e fpZero := by
  have hzero : fpMag fpZero = 0 := by decide
  exact ⟨by decide, hzero.trans_le (Nat.zero_le _)⟩

theorem MagAtMost.mono {k l e : Nat} {x : F64} (h : MagAtMost k e x) (hkl : k ≤ l) : MagAtMost l e x :=
  ⟨h.finite, h.mag.trans (Nat.mul_le_mul_right _ hkl)⟩

section

variable {e : Nat} (he : 52 ≤ e ∧ e ≤ 2088)

include he

/-- A whole number of steps is the magnitude of a finite pattern. -/
theorem exists_finite_fpMag_eq {k : Nat} (hk : k < 2 ^ 10) : ∃ c, isFinite c = true ∧ fpMag c = k * 2 ^ e := by
  obtain ⟨hlo, hhi⟩ := he
  obtain ⟨low, hlow⟩ := exists_lowMag_eq k e (by omega) hlo
  have hinf : lowMag infLow = 2 ^ 10 * 2 ^ 2088 := by decide +kernel
  have hlt : low < infLow := by
    rw [← lowMag_strictMono.lt_iff_lt, hlow, hinf]
    exact Nat.mul_lt_mul_of_lt_of_le hk (pow_le_pow_right₀ one_le_two hhi) (pow_pos two_pos _)
  have hpack : fpLow (fpPack false low) = low := fpLow_pack false (hlt.trans infLow_lt)
  exact ⟨fpPack false low, (isFinite_iff _).mpr (by rwa [hpack]), by rw [fpMag_eq, hpack, hlow]⟩

/-- A bound on the low bits by every pattern of k steps is a bound by k steps. -/
theorem magAtMost_of_low_le {k : Nat} {x : F64} (hk : k < 2 ^ 10)
    (h : ∀ c, isFinite c = true → fpMag c = k * 2 ^ e → fpLow x ≤ fpLow c) : MagAtMost k e x := by
  obtain ⟨c, hfin, hmag⟩ := exists_finite_fpMag_eq he hk
  have hle := h c hfin hmag
  exact ⟨isFinite_of_low_le hfin hle, hmag ▸ (fpMag_le_iff x c).mpr hle⟩

theorem MagAtMost.fadd {k l : Nat} {a b : F64} (ha : MagAtMost k e a) (hb : MagAtMost l e b) (hkl : k + l < 2 ^ 10) :
    MagAtMost (k + l) e (fadd a b) := by
  refine magAtMost_of_low_le he hkl fun c hc hmag => ?_
  have hsum : (fpUnits a + fpUnits b).natAbs ≤ fpMag c := by
    rw [hmag, Nat.add_mul]
    refine (Int.natAbs_add_le _ _).trans ?_
    rw [fpUnits_natAbs, fpUnits_natAbs]
    exact Nat.add_le_add ha.mag hb.mag
  rw [fadd_finite ha.finite hb.finite, fpLow_pack _ (roundMag_lt _ _)]
  exact roundMag_le _ 1 _ one_pos ((isFinite_iff c).mp hc).le (by rwa [← fpMag_eq, Nat.one_mul])

/-- 1.0 is 2^1074 units, so the exponents of the steps add up to 1074 more. -/
theorem MagAtMost.fmul {k l d f : Nat} {a b : F64} (ha : MagAtMost k d a) (hb : MagAtMost l f b)
    (hexp : d + f = 1074 + e) (hkl : k * l < 2 ^ 10) : MagAtMost (k * l) e (fmul a b) := by
  refine magAtMost_of_low_le he hkl fun c hc hmag => fmul_mag_le ha.finite hb.finite (not_isNaN_of_isFinite hc) ?_
  calc fpMag a * fpMag b ≤ k * 2 ^ d * (l * 2 ^ f) := Nat.mul_le_mul ha.mag hb.mag
    _ = k * l * 2 ^ (d + f) := by ring
    _ = 2 ^ 1074 * fpMag c := by rw [hexp, hmag, pow_add, Nat.mul_left_comm]

/-- n terms of at most k steps each add up to at most n x k steps, whatever the roundings on the way. -/
theorem MagAtMost.foldl_fadd {α : Type} {term : α → F64} {k : Nat} (l : List α)
    (hterm : ∀ i ∈ l, MagAtMost k e (term i)) {m : Nat} {acc : F64} (hacc : MagAtMost m e acc)
    (hm : m + l.length * k < 2 ^ 10) :
    MagAtMost (m + l.length * k) e (l.foldl (fun acc i => Machine.fadd acc (term i)) acc) := by
  induction l generalizing m acc with
  | nil => simpa using hacc
  | cons i l ih =>
    obtain ⟨hi, hl⟩ := List.forall_mem_cons.mp hterm
    have hsteps : m + (i :: l).length * k = m + k + l.length * k := by rw [List.length_cons]; ring
    rw [hsteps] at hm ⊢
    exact ih hl (hacc.fadd he hi (by omega)) hm

end

/-! ### The frame -/

/-- A waveform value is at most 61/32 in magnitude: the greatest peak, 1.9 and the roundings, lies below. -/
theorem waveform_magAtMost {phase : F64} (h : phaseInRange phase = true) (c : Instrument) :
    MagAtMost 61 1069 (waveform sinUnit c phase) := by
  have hmag : fpMag phase ≤ fpMag fpTwoPow1000 := by
    obtain ⟨hs, hlt⟩ := (phaseInRange_iff phase).mp h
    have hone : fpUnits fpOne ≤ fpMag fpTwoPow1000 := by decide +kernel
    rw [fpUnits_of_sign_false hs] at hlt
    exact_mod_cast (hlt.trans_le hone).le
  have hpeak : fpLow (waveformPeak c) ≤ fpLow 0x3FFE800000000000 := by cases c <;> decide +kernel
  have hbound : fpMag 0x3FFE800000000000 = 61 * 2 ^ 1069 := by decide +kernel
  have hlow := (waveform_low_le_peak hmag c).trans hpeak
  exact ⟨isFinite_of_low_le (by decide) hlow, hbound ▸ (fpMag_le_iff _ _).mpr hlow⟩

/-- With every active phase in range and every active amplitude at most 2^5 steps, a half of the frame is at most
16 x 61 steps: 30.5 times the bound on the amplitudes. -/
theorem mix_magAtMost {e : Nat} (he : 52 ≤ e ∧ e ≤ 2088) {s : State}
    (h : ∀ i, (s.voice i).active = true →
      phaseInRange (s.voice i).phase = true ∧ MagAtMost 1 (e + 5) (s.voice i).amplitude) :
    MagAtMost 976 e (mix sinUnit s) := by
  have hterm : ∀ i ∈ activeSlots s, MagAtMost 61 e (voiceTerm sinUnit (s.voice i)) := by
    intro i hi
    obtain ⟨hphase, hamp⟩ := h i (by simpa [activeSlots] using hi)
    exact (waveform_magAtMost hphase _).fmul he hamp (by omega) (by norm_num)
  have hlen : (activeSlots s).length ≤ 16 := (List.length_filter_le _ _).trans_eq (List.length_finRange)
  exact (MagAtMost.foldl_fadd he _ hterm (.zero e) (by omega)).mono (by omega)

theorem magAtMost_of_amplitudeFinite {a : F64} (h : amplitudeFinite a = true) : MagAtMost 1 2074 a := by
  have hbound : fpMag fpTwoPow1000 = 1 * 2 ^ 2074 := by decide +kernel
  obtain ⟨hfin, hmag⟩ := (Bool.and_eq_true _ _).mp h
  exact ⟨hfin, hbound ▸ of_decide_eq_true hmag⟩

/-- Settles O25: with amplitudes of at most 2^1000 a half is at most 30.5 x 2^1000 (`mix_magAtMost`), below 2^1005. -/
theorem framesWithinThePremisesAreFinite : Obligations.FramesWithinThePremisesAreFinite := by
  intro s hs
  obtain ⟨hfin, hmag⟩ : MagAtMost 976 2069 (mix sinUnit s) := mix_magAtMost (by norm_num) fun i hactive => by
    obtain ⟨-, hphase, hamp⟩ := hs i hactive
    exact ⟨hphase, magAtMost_of_amplitudeFinite hamp⟩
  have hlt : 976 * 2 ^ 2069 < 2 ^ 1005 * 2 ^ 1074 := by decide +kernel
  exact ⟨_, _, rfl, renderFrame_out_mix sinUnit s, hfin, hfin, hmag.trans_lt hlt, hmag.trans_lt hlt⟩

end Sys2Proof.Machine
end

section
/-! PROOFS. What the host's premises buy (70_reset_and_hazards.md R145): increments below 1.0, voices that stay within
the premises, and frames of at most 30.5. -/

namespace Sys2Proof.Machine

/-! ### FreqInRange and the increment -/

/-- The greatest value below `FS`. -/
def fpPredFS : F64 := 0x40E5887FFFFFFFFF#64

/-- `frequencyInRange` with its parts named. -/
theorem frequencyInRange_iff (f : F64) :
    frequencyInRange f = true ↔ isFinite f = true ∧ 0 < fpUnits f ∧ fpUnits f < fpUnits fpFS := by
  simp [frequencyInRange]

theorem fpSign_of_fpUnits_pos {x : F64} (h : 0 < fpUnits x) : fpSign x = false := by
  cases hs : fpSign x with
  | false => rfl
  | true =>
    rw [fpUnits, if_pos hs] at h
    omega

/-- Between `fpPredFS` and `FS` there is no magnitude. -/
theorem fpMag_le_predFS {f : F64} (h : fpMag f < fpMag fpFS) : fpMag f ≤ fpMag fpPredFS := by
  have hlow : fpLow fpFS = fpLow fpPredFS + 1 := by decide
  have hlt : fpLow f < fpLow fpFS := lt_of_not_ge fun hle => h.not_ge ((fpMag_le_iff _ _).mpr hle)
  exact (fpMag_le_iff _ _).mpr (by omega)

/-- The magnitude of a quotient is at most that of a pattern that bounds the exact quotient. -/
theorem fdivFS_mag_le {a c : F64} (ha : isFinite a = true) (hc : isNaN c = false) (h : fpMag a ≤ 44100 * fpMag c) :
    fpMag (fdivFS a) ≤ fpMag c := by
  have hnum : fpMag a * 2 ^ 1074 ≤ fpMag fpFS * lowMag (fpLow c) := by
    rw [fpMag_fpFS, ← fpMag_eq, Nat.mul_right_comm]
    exact Nat.mul_le_mul_right _ h
  rw [fpMag_le_iff, fdivFS_finite ha, fpLow_pack _ (roundMag_lt _ _)]
  exact roundMag_le _ _ _ (by decide) ((not_isNaN_iff c).mp hc) hnum

/-- The quotient of the greatest frequency in range is at most the value before 1.0, so the rounding reaches 1.0 for
none. -/
theorem phaseInRange_fdivFS {f : F64} (h : frequencyInRange f = true) : phaseInRange (fdivFS f) = true := by
  obtain ⟨hfin, hpos, hlt⟩ := (frequencyInRange_iff f).mp h
  have hsign : fpSign f = false := fpSign_of_fpUnits_pos hpos
  rw [fpUnits_of_sign_false hsign, fpUnits_of_sign_false (x := fpFS) (by decide)] at hlt
  have hmag : fpMag f ≤ 44100 * fpMag fpPredOne :=
    (fpMag_le_predFS (by exact_mod_cast hlt)).trans (by decide +kernel)
  have hquot : fpMag (fdivFS f) < fpMag fpOne :=
    (fdivFS_mag_le hfin (by decide) hmag).trans_lt (by decide +kernel)
  have hsignq : fpSign (fdivFS f) = false := (fpSign_fdivFS (not_isNaN_of_isFinite hfin)).trans hsign
  rw [phaseInRange_iff, fpUnits_of_sign_false hsignq, fpUnits_of_sign_false (x := fpOne) (by decide)]
  exact ⟨hsignq, by exact_mod_cast hquot⟩

theorem inUnitInterval_of_phaseInRange {x : F64} (h : phaseInRange x = true) : inUnitInterval x = true :=
  ((Bool.and_eq_true _ _).mp h).1

/-- Settles O31: `phaseInRange_fdivFS`, its sign set aside. -/
theorem frequencyInRangeGivesIncrementBelowOne : Obligations.FrequencyInRangeGivesIncrementBelowOne :=
  fun _ h => inUnitInterval_of_phaseInRange (phaseInRange_fdivFS h)

/-! ### The voices -/

/-- An instruction keeps every active voice within the premises, if it is no NOTE_ON that breaks them. -/
theorem VoicesInPremise.exec {i : Instr} {s t : State} (hs : VoicesInPremise s)
    (hnote : ∀ f a, i = .noteOn f a → frequencyInRange f = true ∧ amplitudeFinite a = true)
    (h : exec i s = .next t) : VoicesInPremise t := by
  intro j
  rcases exec_voice_cases h j with he | ⟨f, a, hi, -, he⟩ | ⟨f, -, -, he⟩ | ⟨-, hactive, he⟩ <;> rw [he]
  · exact hs j
  · obtain ⟨hf, ha⟩ := hnote f a hi
    exact fun _ => ⟨frequencyInRangeGivesIncrementBelowOne f hf, phaseInRange_zero, ha⟩
  · exact fun hactive => absurd hactive Bool.false_ne_true
  · obtain ⟨hinc, hphase, hamp⟩ := hs j hactive
    exact fun _ => ⟨hinc, phaseInRange_nextPhase hphase hinc, hamp⟩

/-- Settles O30: an idle step keeps the state, and any other executes one word that meets the premises
(`VoicesInPremise.exec`) and leaves the rest of them to deliver. -/
theorem premisesKeepVoicesInRange : Obligations.PremisesKeepVoicesInRange := by
  intro s t hs hfreq hamp hstep
  rcases step_cases hstep with ⟨-, rfl⟩ | ⟨cw, rest, hpending, hexec⟩
  · exact ⟨hs, hfreq, hamp⟩
  · have hrest : t.pending = rest := exec_pending hexec
    rw [hpending] at hfreq hamp
    rw [hrest]
    have hs' : VoicesInPremise (s.setPending rest) := hs
    exact ⟨hs'.exec (fun f a hd => ⟨hfreq cw List.mem_cons_self f a hd, hamp cw List.mem_cons_self f a hd⟩) hexec,
      fun w hw => hfreq w (List.mem_cons_of_mem cw hw), fun w hw => hamp w (List.mem_cons_of_mem cw hw)⟩

/-! ### AmpIntended and the frame -/

theorem magAtMost_of_amplitudeIntended {a : F64} (h : amplitudeIntended a = true) : MagAtMost 1 1074 a := by
  obtain ⟨hfin, hrange⟩ := (Bool.and_eq_true _ _).mp h
  obtain ⟨hnonneg, hle⟩ := of_decide_eq_true hrange
  have hone : fpUnits fpOne = fpMag fpOne := fpUnits_of_sign_false (by decide)
  have hmag : fpMag a ≤ fpMag fpOne := by
    rw [← fpUnits_natAbs a]
    omega
  exact ⟨hfin, hmag.trans_eq (by decide +kernel)⟩

/-- Settles O26: with amplitudes of at most 1.0, 2^5 steps of 2^1069 units, a half is at most 976 of them
(`mix_magAtMost`), which is 30.5. -/
theorem intendedAmplitudesBoundTheFrame : Obligations.IntendedAmplitudesBoundTheFrame := by
  intro s hs hamp
  have hmix : MagAtMost 976 1069 (mix sinUnit s) := mix_magAtMost (by norm_num) fun i hactive => by
    obtain ⟨-, hphase, -⟩ := hs i hactive
    exact ⟨hphase, magAtMost_of_amplitudeIntended (hamp i hactive)⟩
  have hbound : 976 * 2 ^ 1069 = fpMag 0x403E800000000000 := by decide +kernel
  have hhalf : fpMag (mix sinUnit s) ≤ fpMag 0x403E800000000000 := hmix.mag.trans_eq hbound
  exact ⟨_, _, rfl, renderFrame_out_mix sinUnit s, hhalf, hhalf⟩

end Sys2Proof.Machine
end

section
/-! PROOFS. Reset, the wait of a RENDER for the sink, and the end of a run (70_reset_and_hazards.md R140, R153,
R154). -/

namespace Sys2Proof.Machine

/-! ### Reset -/

/-- Settles O36: `rst` leaves the reset state, with the words still to deliver. -/
theorem resetFreesEverySlotAndEmptiesTheOutput : Obligations.ResetFreesEverySlotAndEmptiesTheOutput := by
  intro s
  have hfree : ∀ i, ((assertReset s).voice i).active = false := fun i => by
    rw [assertReset, State.voice_setPending, State.voice_reset]
    rfl
  exact ⟨hfree, rfl, rfl, rfl, rfl⟩

/-- Settles O34: a run appends a frame for each RENDER, and OUT is empty at reset. -/
theorem outputLengthIsTheNumberOfRenders : Obligations.OutputLengthIsTheNumberOfRenders := by
  intro words
  obtain ⟨t, ht⟩ := exists_runWords_eq_next words State.reset
  exact ⟨t, ht, by rw [runWords_out_length ht, State.out_reset, List.length_nil, Nat.zero_add]⟩

/-! ### The wait -/

theorem cmdReady_congr {s t : State} (hout : t.out.length = s.out.length) (htaken : t.taken = s.taken) :
    cmdReady t = cmdReady s := by
  rw [cmdReady, cmdReady, hout, htaken]

theorem sinkAccept_false (s : State) : sinkAccept false s = s := rfl

/-- With `cmd_ready` = 0 and a sink that accepts nothing, a cycle changes nothing. -/
theorem portCycle_of_stalled {s : State} (h : cmdReady s = false) : portCycle false s = .next s := by
  rcases portCycle_cases false s with ⟨-, hcycle⟩ | ⟨hready, -⟩
  · exact hcycle
  · rw [sinkAccept_false, h] at hready
    exact absurd hready Bool.false_ne_true

/-- Settles O39: `cmd_ready` counts the frames of OUT not taken, which RENDER alone adds to. -/
theorem onlyRenderWaitsAndTheStateIsIntact : Obligations.OnlyRenderWaitsAndTheStateIsIntact := by
  refine ⟨fun i s t hi h => ?_, fun s t h => ?_, fun s hs n => ?_⟩
  · have hout : t.out = s.out := (exec_out_cases h).resolve_right fun hrender => hi hrender.1
    exact cmdReady_congr (congrArg List.length hout) (exec_taken h)
  · obtain rfl := Host.Outcome.next.inj h
    simp [cmdReady, renderFrame_out]
  · induction n with
    | zero => rfl
    | succ n ih => exact (portRun_succ_of_next ih).trans (portCycle_of_stalled hs)

/-! ### Progress under a sink that drains

A cycle that changes the state lessens `portWork`, and a run that has not ended reaches such a cycle. -/

/-- What is left for the ports to do: each word can add a frame, and each frame not taken is to be taken. -/
def portWork (s : State) : Nat := 2 * s.pending.length + (s.out.length - s.taken)

/-- The sink's side of a cycle takes a frame that is offered and accepted, and changes nothing otherwise. -/
theorem sinkAccept_eq_or_portWork_lt (r : Bool) (s : State) :
    (¬ (r = true ∧ s.taken < s.out.length) ∧ sinkAccept r s = s) ∨ portWork (sinkAccept r s) < portWork s := by
  rw [sinkAccept_eq]
  by_cases htake : r = true ∧ s.taken < s.out.length
  · right
    have hlt : s.taken < s.out.length := htake.2
    rw [if_pos htake]
    simp only [portWork, State.pending_setTaken, State.out_setTaken, State.taken_setTaken]
    omega
  · left
    rw [if_neg htake]
    exact ⟨htake, rfl⟩

/-- A step executes the next word, which adds at most one frame, and changes nothing with no word to execute. -/
theorem step_eq_or_portWork_lt {s t : State} (h : step s = .next t) :
    (s.pending = [] ∧ t = s) ∨ portWork t < portWork s := by
  rcases step_cases h with hidle | ⟨cw, rest, hpending, hexec⟩
  · exact .inl hidle
  · right
    have hrest : t.pending = rest := exec_pending hexec
    have htaken : t.taken = s.taken := exec_taken (s := s.setPending rest) hexec
    have hout : t.out.length ≤ s.out.length + 1 := by
      rcases exec_out_cases hexec with ho | ⟨-, x, -, ho⟩ <;> simp [ho]
    simp only [portWork, hrest, htaken, hpending, List.length_cons]
    omega

/-- All a cycle can do: lessen the work, or leave the state as it is, because the run has ended or because a frame is
offered and the sink does not accept it. -/
theorem portCycle_progress {r : Bool} {s t : State} (hs : TakenWithin s) (h : portCycle r s = .next t) :
    portWork t < portWork s ∨ t = s ∧ (RunEnded s ∨ frameValid s = true ∧ r = false) := by
  have hframe : s.taken = s.out.length ∨ s.taken < s.out.length := Nat.eq_or_lt_of_le hs
  rcases sinkAccept_eq_or_portWork_lt r s with ⟨hnotake, hsink⟩ | hsink
  · have hrefused : s.taken < s.out.length → frameValid s = true ∧ r = false := fun hlt =>
      ⟨decide_eq_true hlt, Bool.eq_false_iff.mpr fun hr => hnotake ⟨hr, hlt⟩⟩
    rcases portCycle_cases r s with ⟨hready, hcycle⟩ | ⟨-, hcycle⟩ <;> rw [hsink] at hcycle
    · obtain rfl := Host.Outcome.next.inj (h.symm.trans hcycle)
      have hlt : t.taken < t.out.length := by
        rw [hsink, cmdReady, decide_eq_false_iff_not] at hready
        omega
      exact .inr ⟨rfl, .inr (hrefused hlt)⟩
    · rcases step_eq_or_portWork_lt (hcycle.symm.trans h) with ⟨hpending, rfl⟩ | hlt
      · exact .inr ⟨rfl, hframe.imp (fun heq => ⟨hpending, heq⟩) hrefused⟩
      · exact .inl hlt
  · left
    rcases portCycle_cases r s with ⟨-, hcycle⟩ | ⟨-, hcycle⟩
    · obtain rfl := Host.Outcome.next.inj (h.symm.trans hcycle)
      exact hsink
    · rcases step_eq_or_portWork_lt (hcycle.symm.trans h) with ⟨-, rfl⟩ | hlt
      · exact hsink
      · exact hlt.trans hsink

/-! ### The end of a run -/

section

variable {frameReady : Nat → Bool} {s : State}

/-- The sink is never ahead of OUT (`thePortsChangeNoValue`). -/
theorem takenWithin_of_portRun (hs : TakenWithin s) {n : Nat} {t : State} (h : portRun frameReady n s = .next t) :
    TakenWithin t := by
  obtain ⟨k, t', u, ht', -, -, hwithin⟩ := thePortsChangeNoValue frameReady n s hs
  obtain rfl := Host.Outcome.next.inj (h.symm.trans ht')
  exact hwithin

/-- Every number of cycles has a next cycle. -/
theorem exists_portCycle_eq_next (hs : TakenWithin s) {n : Nat} {t : State} (h : portRun frameReady n s = .next t) :
    ∃ t', portCycle (frameReady n) t = .next t' ∧ portRun frameReady (n + 1) s = .next t' := by
  obtain ⟨k, t', u, ht', -, -, -⟩ := thePortsChangeNoValue frameReady (n + 1) s hs
  exact ⟨t', (portRun_succ_of_next h).symm.trans ht', ht'⟩

/-- A run keeps its state until its work lessens. -/
theorem portRun_waits (hs : TakenWithin s) {n : Nat} {t : State} (h : portRun frameReady n s = .next t) {m : Nat}
    (hm : n ≤ m) :
    (∃ l t', portRun frameReady l s = .next t' ∧ portWork t' < portWork t) ∨ portRun frameReady m s = .next t := by
  induction m, hm using Nat.le_induction with
  | base => exact .inr h
  | succ m hm ih =>
    rcases ih with hless | hm
    · exact .inl hless
    · obtain ⟨t', hcycle, hrun⟩ := exists_portCycle_eq_next hs hm
      rcases portCycle_progress (takenWithin_of_portRun hs h) hcycle with hlt | ⟨rfl, -⟩
      · exact .inl ⟨_, t', hrun, hlt⟩
      · exact .inr hrun

/-- Under a sink that drains, the work of a run that has not ended lessens in some cycle. -/
theorem exists_portWork_lt (hs : TakenWithin s) (hdrains : SinkDrains frameReady s) {n : Nat} {t : State}
    (h : portRun frameReady n s = .next t) (hend : ¬ RunEnded t) :
    ∃ l t', portRun frameReady l s = .next t' ∧ portWork t' < portWork t := by
  have hwithin : TakenWithin t := takenWithin_of_portRun hs h
  obtain ⟨t', hcycle, hrun⟩ := exists_portCycle_eq_next hs h
  rcases portCycle_progress hwithin hcycle with hlt | ⟨-, hended | ⟨hvalid, -⟩⟩
  · exact ⟨_, t', hrun, hlt⟩
  · exact absurd hended hend
  · obtain ⟨m, hm, haccepts⟩ := hdrains n t h hvalid
    rcases portRun_waits hs h hm with hless | hwaits
    · exact hless
    · obtain ⟨t'', hcycle', hrun'⟩ := exists_portCycle_eq_next hs hwaits
      rcases portCycle_progress hwithin hcycle' with hlt | ⟨-, hended | ⟨-, hrefuses⟩⟩
      · exact ⟨_, t'', hrun', hlt⟩
      · exact absurd hended hend
      · exact absurd (haccepts.symm.trans hrefuses) Bool.noConfusion

/-- Under a sink that drains, a run ends from every state it reaches: by induction on the work left there. -/
theorem exists_portRun_ended (hs : TakenWithin s) (hdrains : SinkDrains frameReady s) {n : Nat} {t : State}
    (h : portRun frameReady n s = .next t) : ∃ m u, portRun frameReady m s = .next u ∧ RunEnded u := by
  induction hwork : portWork t using Nat.strong_induction_on generalizing n t with
  | _ work ih =>
    by_cases hend : RunEnded t
    · exact ⟨n, t, h, hend⟩
    · obtain ⟨l, t', hrun, hlt⟩ := exists_portWork_lt hs hdrains h hend
      exact ih (portWork t') (hwork ▸ hlt) hrun rfl

/-- An ended run stays where it is, whatever the sink does. -/
theorem portRun_of_ended (hs : TakenWithin s) {n : Nat} {t : State} (h : portRun frameReady n s = .next t)
    (hend : RunEnded t) {m : Nat} (hm : n ≤ m) : portRun frameReady m s = .next t := by
  induction m, hm using Nat.le_induction with
  | base => exact h
  | succ m hm ih =>
    obtain ⟨t', hcycle, hrun⟩ := exists_portCycle_eq_next hs ih
    obtain ⟨hpending, htaken⟩ := hend
    have hnowork : portWork t = 0 := by simp [portWork, hpending, htaken]
    rcases portCycle_progress (takenWithin_of_portRun hs h) hcycle with hlt | ⟨rfl, -⟩
    · omega
    · exact hrun

/-- With every frame taken the engine is ready for a command, whatever the depth of the output buffer. -/
theorem cmdReady_of_ended {t : State} (h : RunEnded t) : cmdReady t = true := by
  obtain ⟨-, htaken⟩ := h
  simp [cmdReady, htaken]

/-- An ended run leaves the engine as the fold of Step over all the words leaves it. -/
theorem runWords_of_ended (hs : TakenWithin s) {n : Nat} {t : State} (h : portRun frameReady n s = .next t)
    (hend : RunEnded t) : ∃ u, runWords s.pending s = .next u ∧ t = (u.setTaken t.taken).setPending [] := by
  obtain ⟨k, t', u, ht', hu, hfold, -⟩ := thePortsChangeNoValue frameReady n s hs
  obtain rfl := Host.Outcome.next.inj (h.symm.trans ht')
  obtain ⟨hpending, -⟩ := hend
  have hdrop : s.pending.drop k = [] := by rw [← hpending, hfold, State.pending_setPending]
  rw [hdrop] at hfold
  rw [List.take_of_length_le (List.drop_eq_nil_iff.mp hdrop)] at hu
  exact ⟨u, hu, hfold⟩

end

/-- Settles O38: the run ends (`exists_portRun_ended`), stays where it is with the engine ready, and has executed every
word. -/
theorem everyRenderCompletesWhileTheSinkDrains : Obligations.EveryRenderCompletesWhileTheSinkDrains := by
  intro frameReady s hs hdrains
  obtain ⟨n, t, hrun, hend⟩ := exists_portRun_ended hs hdrains (n := 0) rfl
  obtain ⟨u, hu, hfold⟩ := runWords_of_ended hs hrun hend
  refine ⟨fun k => ⟨max k n, t, le_max_left k n, portRun_of_ended hs hrun hend (le_max_right k n),
    cmdReady_of_ended hend⟩, n, t, u, hrun, hend, hu, ?_⟩
  rw [hfold]
  exact ⟨rfl, rfl, fun _ => rfl⟩

end Sys2Proof.Machine
end

section
/-! PROOFS. The opcode table (30_encoding.md, before R52): a row looks at the opcode and the instrument code of a word
alone, no two rows select one word, and each word selects the row of the instruction it is read as. -/

namespace Sys2Proof

/-! ### A row compares two fields -/

/-- A mask on the opcode and the code keeps those two fields, masked, and clears every other bit. -/
theorem and_mkCmdWord_code (cw : CmdWord) (m : BitVec 8) (k : BitVec 2) :
    cw &&& mkCmdWord m 0 (k.setWidth 64) = mkCmdWord (cwOp cw &&& m) 0 ((cwCode cw &&& k).setWidth 64) := by
  apply BitVec.eq_of_getLsbD_eq
  intro i hi
  simp only [mkCmdWord, cwOp, cwCode, BitVec.getLsbD_and, BitVec.getLsbD_append, BitVec.getLsbD_setWidth,
    BitVec.getLsbD_extractLsb']
  by_cases hlow : i < 64
  · by_cases hcode : i < 2
    · simp [hcode, hlow, show i < 128 by omega]
    · simp [hlow, show i < 128 by omega, BitVec.getLsbD_of_ge k i (by omega)]
  · by_cases hmid : i < 128
    · simp [hmid, hlow, show i - 64 < 64 by omega]
    · simp [hmid, show i - 128 < 8 by omega, show 128 + (i - 128) = i by omega]

theorem cwCode_mkCmdWord_code (op : BitVec 8) (k : BitVec 2) : cwCode (mkCmdWord op 0 (k.setWidth 64)) = k := by
  rw [cwCode_mkCmdWord]
  revert k
  decide

/-- A word with an opcode and a code alone determines both. -/
theorem mkCmdWord_code_inj {op op' : BitVec 8} {k k' : BitVec 2} :
    mkCmdWord op 0 (k.setWidth 64) = mkCmdWord op' 0 (k'.setWidth 64) ↔ op = op' ∧ k = k' := by
  constructor
  · intro h
    have hop := congrArg cwOp h
    have hk := congrArg cwCode h
    rw [cwOp_mkCmdWord, cwOp_mkCmdWord] at hop
    rw [cwCode_mkCmdWord_code, cwCode_mkCmdWord_code] at hk
    exact ⟨hop, hk⟩
  · rintro ⟨rfl, rfl⟩
    rfl

/-- The masks and bits of the table lie in the opcode and the code. -/
theorem opcodeTable_fields : ∀ r ∈ opcodeTable,
    r.mask = mkCmdWord (cwOp r.mask) 0 ((cwCode r.mask).setWidth 64) ∧
      r.bits = mkCmdWord (cwOp r.bits) 0 ((cwCode r.bits).setWidth 64) := by
  decide

/-- A row that looks at the code is one of SET_INSTRUMENT's four, whose whole opcode is fixed (R57, R61). -/
theorem opcodeTable_code_rows : ∀ r ∈ opcodeTable,
    cwCode r.mask ≠ 0#2 → cwOp r.mask = BitVec.allOnes 8 ∧ cwOp r.bits = 0x03 := by
  decide

section

variable {r : OpRow}

theorem selects_iff_fields (hr : r ∈ opcodeTable) (cw : CmdWord) :
    r.selects cw = true ↔ cwOp cw &&& cwOp r.mask = cwOp r.bits ∧ cwCode cw &&& cwCode r.mask = cwCode r.bits := by
  obtain ⟨hmask, hbits⟩ := opcodeTable_fields r hr
  rw [OpRow.selects, beq_iff_eq, ← mkCmdWord_code_inj, ← and_mkCmdWord_code, ← hmask, ← hbits]

theorem cwOp_of_selects_of_code {cw : CmdWord} (hr : r ∈ opcodeTable) (hcode : cwCode r.mask ≠ 0#2)
    (h : r.selects cw = true) : cwOp cw = 0x03 := by
  obtain ⟨hmask, hbits⟩ := opcodeTable_code_rows r hr hcode
  obtain ⟨hop, -⟩ := (selects_iff_fields hr cw).mp h
  rwa [hmask, hbits, BitVec.and_allOnes] at hop

end

/-! ### The rows cover every word -/

/-- The family `EncodedRow` (Laws/PerInstr.lean), as one statement over all of `Instr`. -/
theorem encodedRow_statement (i : Instr) : Laws.EncodedRow.Statement i := by
  cases i with
  | nop => exact Laws.EncodedRow.nop
  | noteOn f a => exact Laws.EncodedRow.noteOn f a
  | noteOff f => exact Laws.EncodedRow.noteOff f
  | setInstrumentPiano => exact Laws.EncodedRow.setInstrumentPiano
  | setInstrumentViolin => exact Laws.EncodedRow.setInstrumentViolin
  | setInstrumentTrumpet => exact Laws.EncodedRow.setInstrumentTrumpet
  | nopMalformedSetInstrument => exact Laws.EncodedRow.nopMalformedSetInstrument
  | render => exact Laws.EncodedRow.render
  | nopReserved05 => exact Laws.EncodedRow.nopReserved05
  | nopReserved06 op => exact Laws.EncodedRow.nopReserved06 op
  | nopReserved08 op => exact Laws.EncodedRow.nopReserved08 op
  | nopReserved10 op => exact Laws.EncodedRow.nopReserved10 op
  | nopReserved20 op => exact Laws.EncodedRow.nopReserved20 op
  | nopReserved40 op => exact Laws.EncodedRow.nopReserved40 op
  | nopReserved80 op => exact Laws.EncodedRow.nopReserved80 op

/-- Reading a word and writing it back loses no bit the word's row looks at: the opcode is kept, and the code is kept
wherever a row looks at it. -/
theorem selects_of_selects_encode_decode {r : OpRow} (hr : r ∈ opcodeTable) {cw : CmdWord}
    (h : r.selects (encode (decode cw)) = true) : r.selects cw = true := by
  obtain ⟨hop, hcode⟩ := (selects_iff_fields hr _).mp h
  rw [cwOp_encode_decode] at hop
  refine (selects_iff_fields hr cw).mpr ⟨hop, ?_⟩
  by_cases hmask : cwCode r.mask = 0#2
  · rwa [hmask, BitVec.and_zero] at hcode ⊢
  · have hset : cwOp cw = 0x03 := by rw [← cwOp_encode_decode, cwOp_of_selects_of_code hr hmask h]
    rwa [decode_of_setInstrument hset, cwCode_encode_decodeSetInstrument] at hcode

theorem exists_row_selects (cw : CmdWord) :
    ∃ r, opcodeTable[(decode cw).row]? = some r ∧ r.selects cw = true := by
  obtain ⟨r, hr, hsel⟩ := encodedRow_statement (decode cw) (wellFormed_decode cw)
  exact ⟨r, hr, selects_of_selects_encode_decode (List.mem_of_getElem? hr) hsel⟩

/-! ### No two rows select one word -/

/-- Two rows that select one word agree on the bits both of them look at. -/
theorem bits_and_mask_of_selects {r r' : OpRow} {cw : CmdWord} (h : r.selects cw = true) (h' : r'.selects cw = true) :
    r.bits &&& r'.mask = r'.bits &&& r.mask := by
  rw [OpRow.selects, beq_iff_eq] at h h'
  rw [← h, ← h', BitVec.and_assoc, BitVec.and_assoc, BitVec.and_comm r.mask]

/-- Any two rows of the table differ in a bit both of them look at. -/
theorem opcodeTable_disjoint : ∀ m n : Fin opcodeTable.length,
    opcodeTable[m].bits &&& opcodeTable[n].mask = opcodeTable[n].bits &&& opcodeTable[m].mask → m = n := by
  decide

theorem row_unique {m n : Nat} {r r' : OpRow} {cw : CmdWord} (hm : opcodeTable[m]? = some r)
    (hn : opcodeTable[n]? = some r') (h : r.selects cw = true) (h' : r'.selects cw = true) : m = n := by
  obtain ⟨hmlt, rfl⟩ := List.getElem?_eq_some_iff.mp hm
  obtain ⟨hnlt, rfl⟩ := List.getElem?_eq_some_iff.mp hn
  exact congrArg Fin.val (opcodeTable_disjoint ⟨m, hmlt⟩ ⟨n, hnlt⟩ (bits_and_mask_of_selects h h'))

/-- Settles O2: the row of the decoded instruction selects the word (`exists_row_selects`), and no other row does
(`row_unique`). -/
theorem decodeReadsTheOneRowThatSelectsTheWord : Obligations.DecodeReadsTheOneRowThatSelectsTheWord := by
  intro cw n r hr
  obtain ⟨r', hr', hsel⟩ := exists_row_selects cw
  constructor
  · exact fun h => row_unique hr hr' h hsel
  · rintro rfl
    obtain rfl := Option.some.inj (hr.symm.trans hr')
    exact hsel

end Sys2Proof
end
